-- ==== Sys2Proof/Word.lean ====
section
/-! DEFINITION. The byte, the 16-bit value and the length-field width of the UNPI codec core, and the plain XOR fold. -/

namespace Sys2Proof

/-- An unsigned 8-bit value (spec 00 R6). -/
abbrev Byte := BitVec 8

/-- An unsigned 16-bit value: the registers `L` and `idx` (spec 10 R26). -/
abbrev Half := BitVec 16

/-- The length-field width W: 1 or 2 LENGTH bytes (spec 00 R5, 30 R62). -/
inductive Width where
  | w1
  | w2
deriving DecidableEq, Repr

/-- W as a number of bytes (spec 00 R5). -/
def Width.bytes : Width → Nat
  | .w1 => 1
  | .w2 => 2

/-- `fold_xor(seed, s)` (spec 00 R8): the seed XORed with every byte of `s`, in order. -/
def foldXor (seed : Byte) : List Byte → Byte
  | [] => seed
  | b :: rest => foldXor (seed ^^^ b) rest

end Sys2Proof
end

