-- ==== Sys2Proof/Config.lean ====
section
/-! DEFINITION. The constants and parameters of spec 00 R5, and the free values of the model (opaque constants that nothing in Lean can evaluate). -/

namespace Sys2Proof

/-- `SOF`, the start-of-frame byte (spec 00 R5). -/
def Config.sof : Byte := 0xFE#8

/-- `FCS_SEED`, the checksum accumulator's starting value (spec 00 R5). -/
def Config.fcsSeed : Byte := 0xFF#8

/-- `CMD_BYTES`: HEADER plus COMMAND (spec 00 R5). -/
def Config.cmdBytes : Nat := 2

/-- `PBUF_BYTES`, the capacity of the decoder's payload buffer (spec 00 R5). -/
def Config.pbufBytes : Nat := 65535

/-- The default of the parameter `N_INSTANCES` (spec 00 R5). `System.reset` takes the number as its argument. -/
def Config.defaultInstances : Nat := 1

/-! The values that the RESET input leaves in the registers the spec calls unspecified (spec 10 R33, 70 R200;
93 U4 'any value'). Each is a FREE VALUE: an opaque function of the number of RESETs taken before (log 3). -/

/-- The free value of `w` after the n-th RESET, as a WSEL bit. -/
opaque Config.resetWsel : Nat → Bool

/-- The free value of `L` after the n-th RESET. -/
opaque Config.resetL : Nat → Half

/-- The free value of `acc` after the n-th RESET. -/
opaque Config.resetAcc : Nat → Byte

/-- The free value of `hdr` after the n-th RESET. -/
opaque Config.resetHdr : Nat → Byte

/-- The free value of `cmd` after the n-th RESET. -/
opaque Config.resetCmd : Nat → Byte

/-- The free value of `idx` after the n-th RESET. -/
opaque Config.resetIdx : Nat → Half

/-- The free contents of `pbuf` after the n-th RESET, from index 0 up: its first 65535 bytes are used, and where it is
shorter, the indexes above it hold what an unlisted index reads as. -/
opaque Config.resetPbuf : Nat → List Byte

end Sys2Proof
end

