-- ==== Sys2Proof/Syntax.lean ====
section
/-! DEFINITION. What crosses the command port: the Packet, the Command, and the instruction a Command decodes to (one constructor per row of spec/opcode_table.json). -/

namespace Sys2Proof

/-- A Packet (spec 10 R20). `messageType` is in in-place form, bits 7:5 (spec 10 R21, 90 C2). -/
structure Packet where
  messageType : Byte
  subSystem : Byte
  commandId : Byte
  payload : List Byte
deriving DecidableEq, Repr

/-- The Packet whose fields are all zero and whose payload is empty. -/
def Packet.zero : Packet := ⟨0, 0, 0, []⟩

/-- A Command as presented at the command port: the command word and the Packet, which only ENCODE
reads (spec 10 R23). -/
structure Command where
  word : Byte
  pkt : Packet
deriving DecidableEq, Repr

/-- The two operations whose command words have reserved bits (spec 30 R68): OP = 01 and OP = 10. -/
inductive CodecOp where
  | encode
  | decode
deriving DecidableEq, Repr

/-- One constructor per row of spec/opcode_table.json. Bits that a row ignores are kept as operands, so that
decoding loses no bit of the word. -/
inductive Instr where
  /-- ENCODE.W1, word 0x01 (spec 41 R100). -/
  | encodeW1 (p : Packet)
  /-- ENCODE.W2, word 0x05 (spec 41 R100). -/
  | encodeW2 (p : Packet)
  /-- DECODE.W1, word 0x02 (spec 42 R120). -/
  | decodeW1
  /-- DECODE.W2, word 0x06 (spec 42 R120). -/
  | decodeW2
  /-- ABORT, any word with OP = 11; `ignored` is bits 7:2 (spec 44 R160). -/
  | abort (ignored : BitVec 6)
  /-- ILLEGAL (reserved OP), OP = 00; `ignored` is bits 7:2 (spec 44 R162). -/
  | illegalReservedOp (ignored : BitVec 6)
  /-- ILLEGAL (reserved RSVD), OP = 01 or 10 with RSVD nonzero; `wsel` is bit 2, `rsvd` is bits 7:3 (spec 44 R163). -/
  | illegalReservedRsvd (op : CodecOp) (wsel : Bool) (rsvd : BitVec 5)
deriving DecidableEq, Repr

end Sys2Proof
end

