-- ==== Sys2Proof/WellFormed.lean ====
section
/-! DEFINITION. Which terms of `Instr` a command port can present: the checks that the encodings of spec 30 and the port's payload-length field put on an instruction. -/

namespace Sys2Proof

/-- The port carries the payload's length in a 16-bit field: 0 to 65535 bytes (spec 10 R23). -/
def Packet.presentable (p : Packet) : Bool := p.payload.length ≤ 65535

/-- A well-formed instruction: ENCODE's payload fits the port's length field, and a reserved-bits word has
at least one reserved bit set (spec 10 R23, 30 R68). -/
def Instr.wellFormed : Instr → Bool
  | .encodeW1 p => p.presentable
  | .encodeW2 p => p.presentable
  | .decodeW1 => true
  | .decodeW2 => true
  | .abort _ => true
  | .illegalReservedOp _ => true
  | .illegalReservedRsvd _ _ rsvd => rsvd ≠ 0

end Sys2Proof
end

