-- ==== Sys2Proof/Decode.lean ====
section
/-! DEFINITION. The command decoder, total on all 256 command words, and the encoder, both written from the fields of spec 30 R60. -/

namespace Sys2Proof

/-- `OP`, bits 1:0 (spec 30 R60). -/
def opField (word : Byte) : BitVec 2 := word.extractLsb' 0 2

/-- `WSEL`, bit 2 (spec 30 R60): false selects W = 1 and true W = 2. -/
def wselField (word : Byte) : Bool := word.getLsbD 2

/-- `RSVD`, bits 7:3 (spec 30 R60). -/
def rsvdField (word : Byte) : BitVec 5 := word.extractLsb' 3 5

/-- Bits 7:2, which ABORT and the reserved OP ignore (spec 30 R60, 44 R162). -/
def ignoredField (word : Byte) : BitVec 6 := word.extractLsb' 2 6

/-- A word with OP = 01 (spec 30 R67, R68): ENCODE at the width WSEL selects, or illegal where RSVD is not 00000. -/
def decodeOp01 (c : Command) : Instr :=
  if rsvdField c.word = 0 then
    if wselField c.word then .encodeW2 c.pkt else .encodeW1 c.pkt
  else .illegalReservedRsvd .encode (wselField c.word) (rsvdField c.word)

/-- A word with OP = 10 (spec 30 R67, R68): DECODE at the width WSEL selects, or illegal where RSVD is not 00000. -/
def decodeOp10 (c : Command) : Instr :=
  if rsvdField c.word = 0 then
    if wselField c.word then .decodeW2 else .decodeW1
  else .illegalReservedRsvd .decode (wselField c.word) (rsvdField c.word)

/-- Decoding of `OP` (spec 30 R67). Every word has a row: there is no word that the table leaves out. -/
def decode (c : Command) : Instr :=
  if opField c.word = 0b00#2 then .illegalReservedOp (ignoredField c.word)
  else if opField c.word = 0b01#2 then decodeOp01 c
  else if opField c.word = 0b10#2 then decodeOp10 c
  else .abort (ignoredField c.word)

/-- The instruction that a command word of the opcode table stands for, with the Packet operand zero.
A command word is one byte, so any other count of bits, or a number that does not fit, is refused. -/
def decodeTableWord (nbits w : Nat) : Option Instr :=
  if nbits = 8 ∧ w < 256 then some (decode ⟨BitVec.ofNat 8 w, Packet.zero⟩) else none

/-- The OP bits of the two operations (spec 30 R60). -/
def CodecOp.bits : CodecOp → BitVec 2
  | .encode => 0b01#2
  | .decode => 0b10#2

/-- A command word from its three fields (spec 30 R60): RSVD in bits 7:3, WSEL in bit 2, OP in bits 1:0. -/
def packWord (rsvd : BitVec 5) (wsel : Bool) (op : BitVec 2) : Byte :=
  rsvd ++ BitVec.ofBool wsel ++ op

/-- The command word of an instruction (spec 30 R60). -/
def Instr.word : Instr → Byte
  | .encodeW1 _ => packWord 0 false 0b01#2
  | .encodeW2 _ => packWord 0 true 0b01#2
  | .decodeW1 => packWord 0 false 0b10#2
  | .decodeW2 => packWord 0 true 0b10#2
  | .abort ignored => ignored ++ 0b11#2
  | .illegalReservedOp ignored => ignored ++ 0b00#2
  | .illegalReservedRsvd op wsel rsvd => packWord rsvd wsel op.bits

/-- The Packet an instruction takes from the port: ENCODE's operand, and the zero Packet for every command
that ignores it (spec 10 R23). -/
def Instr.operand : Instr → Packet
  | .encodeW1 p => p
  | .encodeW2 p => p
  | .decodeW1 => Packet.zero
  | .decodeW2 => Packet.zero
  | .abort _ => Packet.zero
  | .illegalReservedOp _ => Packet.zero
  | .illegalReservedRsvd _ _ _ => Packet.zero

/-- The encoder: the Command that presents an instruction at the port (spec 10 R23, 30 R60). -/
def encode (i : Instr) : Command := ⟨i.word, i.operand⟩

/-- The `mask` of an instruction's row of spec/opcode_table.json. -/
def Instr.rowMask : Instr → Byte
  | .encodeW1 _ => 0xFF#8
  | .encodeW2 _ => 0xFF#8
  | .decodeW1 => 0xFF#8
  | .decodeW2 => 0xFF#8
  | .abort _ => 0x03#8
  | .illegalReservedOp _ => 0x03#8
  | .illegalReservedRsvd _ _ _ => 0x00#8

/-- The `match` of an instruction's row of spec/opcode_table.json. -/
def Instr.rowMatch : Instr → Byte
  | .encodeW1 _ => 0x01#8
  | .encodeW2 _ => 0x05#8
  | .decodeW1 => 0x02#8
  | .decodeW2 => 0x06#8
  | .abort _ => 0x03#8
  | .illegalReservedOp _ => 0x00#8
  | .illegalReservedRsvd _ _ _ => 0x00#8

end Sys2Proof
end

