-- ==== Sys2Proof/Machine/State.lean ====
section
/-! DEFINITION. The state of the UNPI codec core: the decoder's registers (spec 10 R26), the receive stream and response log it works on (R31, R32), the command port (44 R164) and the schedule of moves; the reasons a step can stop; the state after reset. -/

namespace Sys2Proof.Machine

open Sys2Proof

/-- The decoder's position in the frame (spec 10 R28). Its numeric encoding is unspecified (93 U5), so it has none. -/
inductive Phase where
  | idle
  | dSof
  | dLen0
  | dLen1
  | dHdr
  | dCmd
  | dPay
  | dFcs
deriving DecidableEq, Repr

/-- The condition of the receive stream (spec 10 R31). -/
inductive RxTerm where
  | opened
  | closed
  | errored
deriving DecidableEq, Repr

/-- The receive stream: the bytes delivered and not yet consumed, oldest first, and the stream's condition (spec 10 R31). -/
structure RxStream where
  bytes : List Byte
  term : RxTerm
deriving DecidableEq, Repr

/-- The result codes (spec 60 R170); `ResultCode.toByte` gives their numbers. -/
inductive ResultCode where
  | ok
  | framingError
  | checksumError
  | endOfStream
  | ioError
  | frameTooLarge
  | cancelled
  | illegalCommand
deriving DecidableEq, Repr

/-- A Response (spec 10 R24). -/
structure Response where
  code : ResultCode
  pkt : Option Packet
  frame : Option (List Byte)
deriving DecidableEq, Repr

/-- A move of the host, of the transport, of another reader of the stream, or of the block itself (spec 60 R181, 30 R71). -/
inductive Move where
  /-- The block takes its enabled step, where it has one (spec 42 R130). -/
  | block
  /-- The host issues a Command at the command port, ABORT included (spec 60 R181, 44 R164). -/
  | issue (c : Command)
  /-- `RX.PUSH`: the transport delivers bytes. -/
  | push (bytes : List Byte)
  /-- `RX.CLOSE`: the stream closes. -/
  | close
  /-- `RX.FAIL`: the transport fails. -/
  | fail
  /-- `RX.REOPEN`: the host opens, or closes and reopens, the transport. -/
  | reopen
  /-- `RESET`: the block's reset input (spec 70 R200). -/
  | reset
  /-- `TX.WRITE`: the host calls writeAll with an encoded frame, outside the block (spec 41 R104). -/
  | txWrite (frame : List Byte)
  /-- The host reads the response log (spec 60 R181). -/
  | readLog
  /-- Another reader of the same receive stream takes its next byte (spec 20 R54). -/
  | otherRead
deriving DecidableEq, Repr

/-- Indexed bytes in canonical form: indexes strictly rising, and no entry equal to `Memory.unlisted`. -/
abbrev Memory := List Host.Cell

/-- What an index that nothing has written reads as. The spec leaves it unspecified (spec 10 R33).
DESIGN CHOICE (log 2), unsafe: a proof could lean on the zero. -/
def Memory.unlisted : Byte := 0#8

/-- Every index listed lies above `lo`, indexes rise strictly, and no listed byte is the unlisted one. -/
def Memory.risesFrom : Nat → Memory → Bool
  | _, [] => true
  | lo, (a, b) :: rest => lo ≤ a && b != Memory.unlisted && Memory.risesFrom (a + 1) rest

/-- The canonical form of `Memory`. -/
def Memory.wf (m : Memory) : Bool := Memory.risesFrom 0 m

/-- The whole machine. Fields `phase` to `pbuf` are the registers of spec 10 R26; `rx` and `log` are R31 and R32;
`port` is the command port of 44 R164; `schedule` and `draws` are the model's own (log 4, log 3). -/
structure State where
  /-- The decoder's position in the frame (spec 10 R28). -/
  phase : Phase
  /-- The width latched from WSEL at acceptance. -/
  w : Width
  /-- The LENGTH value, zero-extended when W = 1. -/
  L : Half
  /-- The running checksum. -/
  acc : Byte
  /-- The received HEADER byte. -/
  hdr : Byte
  /-- The received COMMAND byte. -/
  cmd : Byte
  /-- The number of payload bytes received. -/
  idx : Half
  /-- The payload bytes received, indexed 0 to 65534. -/
  pbuf : Memory
  /-- The receive stream (spec 10 R31). -/
  rx : RxStream
  /-- The response log, oldest first (spec 10 R32). -/
  log : List Response
  /-- Commands that wait at the command port, oldest first (spec 44 R164, 70 R209). -/
  port : List Command
  /-- The moves still to be made, next first (the model's own field, log 4). -/
  schedule : List Move
  /-- How many RESETs have been taken (the model's own field, log 3). -/
  draws : Nat
deriving DecidableEq, Repr

/-- The reasons the machine stops with a fault. -/
inductive Fault where
  /-- Raised by the decoder's payload step when `idx` is not an index of `pbuf` (0 to 65534, spec 10 R26).
  Safe: the machine stops, and no run reaches it, since the payload step has `idx` below `L` (log 8). -/
  | pbufIndex
deriving DecidableEq, Repr

/-- The reasons a step has no meaning. -/
inductive Refusal where
  /-- Raised by `exec` for an instruction that has no meaning yet; no arm does so now. Safe: the machine stops. -/
  | notModelled (mnemonic : String)
  /-- Raised by `RX.REOPEN` while a DECODE is in progress, for which the spec's model has no move (92 D26).
  Safe in the model: the machine stops (log 9). -/
  | reopenWhileBusy
  /-- Raised by `RX.PUSH`, `RX.CLOSE` and `RX.FAIL` on a stream that is not OPEN, where the transport may not
  make that move (spec 60 R181). Safe: the machine stops (log 9). -/
  | streamNotOpen
deriving DecidableEq, Repr

/-- The stream that a DECODE finds before any transport is open (spec 70 R202, 92 D24). -/
def RxStream.noTransport : RxStream := ⟨[], .errored⟩

/-- The machine right after reset (spec 10 R33, 70 R200, R202): the block idle, no transport open yet, no response,
no command and no move pending. `w` to `pbuf` are unspecified in the spec; their values here are DESIGN CHOICES
(log 1, log 2). -/
def State.reset : State where
  phase := .idle
  w := .w1
  L := 0
  acc := 0
  hdr := 0
  cmd := 0
  idx := 0
  pbuf := []
  rx := RxStream.noTransport
  log := []
  port := []
  schedule := []
  draws := 0

end Sys2Proof.Machine
end

