-- ==== Sys2Proof/Machine/Ops.lean ====
section
/-! DEFINITION. The named operations over the payload buffer, the receive stream, the response log, the command port and the registers; ending an operation with an error (spec 60 R179) as one shared operation. -/

namespace Sys2Proof.Machine

open Sys2Proof Host

/-- The outcome of a step of this machine. -/
abbrev Result := Outcome State Fault Refusal

/-! The payload buffer (spec 10 R26). -/

/-- The byte at index `a`. -/
def Memory.read : Memory → Nat → Byte
  | [], _ => Memory.unlisted
  | (k, b) :: rest, a => if a = k then b else if a < k then Memory.unlisted else Memory.read rest a

/-- A listed entry in front of `rest`, left out where it is what an unlisted index reads as. -/
def Memory.cons (a : Nat) (b : Byte) (rest : Memory) : Memory :=
  if b = Memory.unlisted then rest else (a, b) :: rest

/-- The memory after index `a` is written with `b`, in canonical form. -/
def Memory.write : Memory → Nat → Byte → Memory
  | [], a, b => Memory.cons a b []
  | (k, c) :: rest, a, b =>
    if a < k then Memory.cons a b ((k, c) :: rest)
    else if a = k then Memory.cons a b rest
    else (k, c) :: Memory.write rest a b

/-- The memory that holds the given bytes from index `a` up and nothing else, in canonical form. -/
def Memory.fill (a : Nat) : List Byte → Memory
  | [] => []
  | b :: rest => Memory.cons a b (Memory.fill (a + 1) rest)

/-- The `n` bytes from index `a` on, in order: `pbuf[a .. a+n)`. -/
def Memory.slice (m : Memory) (a : Nat) : Nat → List Byte
  | 0 => []
  | n + 1 => Memory.read m a :: Memory.slice m (a + 1) n

/-- `pbuf[idx] <- b`, a fault where `idx` is not an index of the buffer (spec 10 R26: 0 to 65534). -/
def State.writePbuf (b : Byte) (s : State) : Result :=
  if s.idx.toNat < Config.pbufBytes then .next { s with pbuf := Memory.write s.pbuf s.idx.toNat b }
  else .fault .pbufIndex

/-- `pbuf[0 .. L)` (spec 42 R132). -/
def State.received (s : State) : List Byte := Memory.slice s.pbuf 0 s.L.toNat

/-! The receive stream (spec 10 R31). -/

/-- `RxTake` (spec 00 R9): the first byte is removed from the stream; nothing happens to an empty one. -/
def State.takeByte (s : State) : State := { s with rx := { s.rx with bytes := s.rx.bytes.tail } }

/-! The response log and the end of an operation. -/

/-- The Response of an error: the code alone (spec 10 R24, 60 R170). -/
def Response.error (code : ResultCode) : Response := ⟨code, none, none⟩

/-- The Response of a successful ENCODE (spec 41 R103). -/
def Response.okFrame (frame : List Byte) : Response := ⟨.ok, none, some frame⟩

/-- The Response of a successful DECODE (spec 42 R125). -/
def Response.okPacket (p : Packet) : Response := ⟨.ok, some p, none⟩

/-- A response is appended to the log and the block is idle (spec 10 R32, 60 R183). -/
def State.respond (r : Response) (s : State) : State := { s with log := s.log ++ [r], phase := .idle }

/-- `raise <Error>`: the block's counterpart of taking an exception (spec 60 R179, 00 R9). The Response carries the
code alone, the block is idle, and nothing else is saved or changed. There is no handler to return from (60 R183). -/
def State.raise (code : ResultCode) (s : State) : State := s.respond (Response.error code)

/-! The command port (spec 44 R164). -/

/-- The command waits at the port, behind the commands that wait there already (spec 44 R164, 70 R209). -/
def State.holdAtPort (c : Command) (s : State) : State := { s with port := s.port ++ [c] }

/-- Acceptance of an instruction other than ABORT (spec 44 R164): with the block idle it is accepted and `accepted`
is its step; with the block busy it is not taken and waits at the port. -/
def State.whenIdle (i : Instr) (s accepted : State) : Result :=
  if s.phase = .idle then .next accepted else .next (s.holdAtPort (encode i))

/-! The decoder's registers. -/

/-- `acc <- acc ^ b` and the next phase: what every step over a checksummed byte does (spec 42 R132). -/
def State.absorb (b : Byte) (next : Phase) (s : State) : State := { s with acc := s.acc ^^^ b, phase := next }

/-- Acceptance of a DECODE (spec 42 R131). -/
def State.startDecode (width : Width) (s : State) : State := { s with phase := .dSof, w := width }

/-- The RESET input (spec 70 R200, R201, 10 R33): the block is idle and every other register unspecified. The stream,
the log and what waits at the port are not touched, and no response is given. The registers and every byte of `pbuf`
take free values (log 3).
DESIGN CHOICE (log 20), unsafe: the free values depend on the instance's own `draws` alone, so two instances of a `System`
after equally many RESETs hold equal registers, which the spec does not say. -/
def State.applyReset (s : State) : State :=
  { s with
    phase := .idle
    w := if Config.resetWsel s.draws then .w2 else .w1
    L := Config.resetL s.draws
    acc := Config.resetAcc s.draws
    hdr := Config.resetHdr s.draws
    cmd := Config.resetCmd s.draws
    idx := Config.resetIdx s.draws
    pbuf := Memory.fill 0 ((Config.resetPbuf s.draws).take Config.pbufBytes)
    draws := s.draws + 1 }

end Sys2Proof.Machine
end

