-- ==== Sys2Proof/Machine/Operands.lean ====
section
/-! DEFINITION. The operand forms: the width of a command, little-endian LENGTH bytes, the payload bounds, the header packer and unpacker (spec 40 R80, R81), and Packets well formed for a width (spec 10 R22). -/

namespace Sys2Proof.Machine

open Sys2Proof

/-- `W = 1 + WSEL` (spec 30 R62). -/
def widthOf (wsel : Bool) : Width := if wsel then .w2 else .w1

/-- `ENC_MAX_PAYLOAD(W) = 2^(8*W) - 1 - 2` (spec 00 R5). -/
def encMaxPayload (width : Width) : Nat := 2 ^ (8 * width.bytes) - 1 - Config.cmdBytes

/-- `DEC_MAX_PAYLOAD(W) = 2^(8*W) - 1` (spec 00 R5). -/
def decMaxPayload (width : Width) : Nat := 2 ^ (8 * width.bytes) - 1

/-- `FRAME_MAX(W) = 1 + W + 2 + ENC_MAX_PAYLOAD(W) + 1` (spec 00 R5). -/
def frameMax (width : Width) : Nat := 1 + width.bytes + Config.cmdBytes + encMaxPayload width + 1

/-- `le_W(v)`: the W-byte little-endian encoding (spec 00 R8, 20 R43). -/
def leBytes : Width → Half → List Byte
  | .w1, v => [v.extractLsb' 0 8]
  | .w2, v => [v.extractLsb' 0 8, v.extractLsb' 8 8]

/-- `zext_16(b)` (spec 00 R7). -/
def zext16 (b : Byte) : Half := b.setWidth 16

/-- `from_le(bs)` for one or two bytes, first byte lowest (spec 00 R8). -/
def fromLe : List Byte → Half
  | [] => 0
  | b :: rest => zext16 b ||| (fromLe rest <<< 8)

/-- HDR_PACK (spec 40 R80). Bits outside the two fields are discarded. -/
def hdrPack (messageType subSystem : Byte) : Byte := (messageType &&& 0xE0#8) ||| (subSystem &&& 0x1F#8)

/-- The `messageType` half of HDR_UNPACK (spec 40 R81), in place. -/
def hdrMessageType (h : Byte) : Byte := h &&& 0xE0#8

/-- The `subSystem` half of HDR_UNPACK (spec 40 R81). -/
def hdrSubSystem (h : Byte) : Byte := h &&& 0x1F#8

/-- The Packet a received HEADER, COMMAND and payload stand for (spec 42 R125). -/
def packetOf (header command : Byte) (payload : List Byte) : Packet :=
  ⟨hdrMessageType header, hdrSubSystem header, command, payload⟩

/-- The first two conditions of WF: both fields in place (spec 10 R21, R22). -/
def inPlace (p : Packet) : Bool := p.messageType &&& 0x1F#8 == 0 && p.subSystem &&& 0xE0#8 == 0

/-- `WF(p, W)` (spec 10 R22). -/
def packetWF (p : Packet) (width : Width) : Bool := inPlace p && p.payload.length ≤ encMaxPayload width

end Sys2Proof.Machine
end

