-- ==== Sys2Proof/Machine/Flags.lean ====
section
/-! DEFINITION. The computed status of the block. It has no condition flags (spec 10 R35): what it computes is the checksum (spec 40 R83), the frame built around it (spec 30 R61), and the numbers of the result codes (spec 60 R170). -/

namespace Sys2Proof.Machine

open Sys2Proof

/-- FCS (spec 40 R83): the XOR fold with seed 0xFF. -/
def fcs (body : List Byte) : Byte := foldXor Config.fcsSeed body

/-- The checksummed part of a frame whose LENGTH field holds `len` (spec 40 R83): LENGTH, HEADER, COMMAND, PAYLOAD. -/
def frameBody (width : Width) (len : Half) (header command : Byte) (payload : List Byte) : List Byte :=
  leBytes width len ++ [header] ++ [command] ++ payload

/-- A frame around a body (spec 30 R61): SOF, the body, and the checksum of the body. -/
def frameAround (body : List Byte) : List Byte := [Config.sof] ++ body ++ [fcs body]

/-- The body of the frame that ENCODE builds for a Packet (spec 41 R100). -/
def packetBody (width : Width) (p : Packet) : List Byte :=
  frameBody width (BitVec.ofNat 16 p.payload.length) (hdrPack p.messageType p.subSystem) p.commandId p.payload

/-- The frame that ENCODE builds for a Packet (spec 41 R100). -/
def packetFrame (width : Width) (p : Packet) : List Byte := frameAround (packetBody width p)

/-- The number of a result code (spec 60 R170). Codes 0x08 to 0xFF are never produced. -/
def ResultCode.toByte : ResultCode → Byte
  | .ok => 0x00#8
  | .framingError => 0x01#8
  | .checksumError => 0x02#8
  | .endOfStream => 0x03#8
  | .ioError => 0x04#8
  | .frameTooLarge => 0x05#8
  | .cancelled => 0x06#8
  | .illegalCommand => 0x07#8

/-- `busy`: a DECODE is in progress (spec 10 R29). -/
def State.busy (s : State) : Bool := s.phase != .idle

end Sys2Proof.Machine
end

