-- ==== Sys2Proof/Machine/Control.lean ====
section
/-! DEFINITION. The control commands (spec 44): the meanings of ABORT and of the two kinds of reserved command word. -/

namespace Sys2Proof.Machine

open Sys2Proof

/-- ABORT (spec 44 R160, R161): accepted in every state; it ends a DECODE in progress with CANCELLED and does nothing
to an idle block. Bits 7:2 are ignored. -/
def execAbort (_ignored : BitVec 6) (s : State) : Result :=
  if s.phase = .idle then .next s else .next (s.raise .cancelled)

/-- A word with OP = 00 (spec 44 R162): ILLEGAL_COMMAND, whatever bits 7:2 are. -/
def execIllegalReservedOp (ignored : BitVec 6) (s : State) : Result :=
  State.whenIdle (.illegalReservedOp ignored) s (s.raise .illegalCommand)

/-- A word with OP = 01 or 10 and RSVD nonzero (spec 44 R163): ILLEGAL_COMMAND and nothing else. -/
def execIllegalReservedRsvd (op : CodecOp) (wsel : Bool) (rsvd : BitVec 5) (s : State) : Result :=
  State.whenIdle (.illegalReservedRsvd op wsel rsvd) s (s.raise .illegalCommand)

end Sys2Proof.Machine
end

