-- ==== Sys2Proof/Machine/Decoder.lean ====
section
/-! DEFINITION. DECODE (spec 42): the acceptance of DECODE.W1 and DECODE.W2, and the decoder state machine's own steps, the byte step (R132) and the terminal step (R133). -/

namespace Sys2Proof.Machine

open Sys2Proof

/-- DECODE.W1 (spec 42 R120, R131). -/
def execDecodeW1 (s : State) : Result := State.whenIdle .decodeW1 s (s.startDecode .w1)

/-- DECODE.W2 (spec 42 R120, R131). -/
def execDecodeW2 (s : State) : Result := State.whenIdle .decodeW2 s (s.startDecode .w2)

/-! One definition per row of the table in spec 42 R132. Each is given the consumed byte, and the state from whose
stream that byte is already removed. -/

/-- Row D_SOF. -/
def stepSof (b : Byte) (s : State) : State :=
  if b ≠ Config.sof then s.raise .framingError else { s with acc := Config.fcsSeed, phase := .dLen0 }

/-- Row D_LEN0. -/
def stepLen0 (b : Byte) (s : State) : State :=
  State.absorb b (if s.w = .w2 then .dLen1 else .dHdr) { s with L := zext16 b }

/-- Row D_LEN1. -/
def stepLen1 (b : Byte) (s : State) : State := State.absorb b .dHdr { s with L := s.L ||| (zext16 b <<< 8) }

/-- Row D_HDR. -/
def stepHdr (b : Byte) (s : State) : State := State.absorb b .dCmd { s with hdr := b }

/-- Row D_CMD. -/
def stepCmd (b : Byte) (s : State) : State :=
  State.absorb b (if s.L = 0 then .dFcs else .dPay) { s with cmd := b, idx := 0 }

/-- Row D_PAY after `pbuf[idx] <- b`. -/
def stepPayStored (b : Byte) (s : State) : State :=
  State.absorb b (if s.idx + 1 = s.L then .dFcs else .dPay) { s with idx := s.idx + 1 }

/-- Row D_PAY. -/
def stepPay (b : Byte) (s : State) : Result :=
  match s.writePbuf b with
  | .next t => .next (stepPayStored b t)
  | .fault r => .fault r
  | .refused r => .refused r

/-- Row D_FCS. -/
def stepFcs (b : Byte) (s : State) : State :=
  if b ≠ s.acc then s.raise .checksumError
  else s.respond (Response.okPacket (packetOf s.hdr s.cmd s.received))

/-- The byte step (spec 42 R132); it has no row for IDLE. -/
def byteStep (b : Byte) (s : State) : Result :=
  match s.phase with
  | .idle => .next s
  | .dSof => .next (stepSof b s)
  | .dLen0 => .next (stepLen0 b s)
  | .dLen1 => .next (stepLen1 b s)
  | .dHdr => .next (stepHdr b s)
  | .dCmd => .next (stepCmd b s)
  | .dPay => stepPay b s
  | .dFcs => .next (stepFcs b s)

/-- The terminal step (spec 42 R133), and the hold on an open stream (R134): an empty stream ends the operation where
it is closed or has failed, and nothing happens where it is open. -/
def terminalStep (s : State) : State :=
  match s.rx.term with
  | .opened => s
  | .closed => s.raise .endOfStream
  | .errored => s.raise .ioError

/-- The decoder's step while a DECODE is in progress (spec 42 R130); an idle decoder has none. -/
def decoderStep (s : State) : Result :=
  if s.phase = .idle then .next s
  else
    match s.rx.bytes with
    | b :: _ => byteStep b s.takeByte
    | [] => .next (terminalStep s)

end Sys2Proof.Machine
end

