-- ==== Sys2Proof/Machine/Encoder.lean ====
section
/-! DEFINITION. ENCODE (spec 41): the frame encoder, and the meanings of ENCODE.W1 and ENCODE.W2. -/

namespace Sys2Proof.Machine

open Sys2Proof

/-- The size check of ENCODE (spec 41 R101): `len(payload) + 2 > 2^(8*W) - 1`. -/
def tooLarge (width : Width) (p : Packet) : Bool :=
  p.payload.length + Config.cmdBytes > 2 ^ (8 * width.bytes) - 1

/-- ENCODE accepted (spec 41 R100, R105): one step, a function of the width and the Packet, that appends a frame or
FRAME_TOO_LARGE and writes no register. -/
def encodeAccepted (width : Width) (p : Packet) (s : State) : State :=
  if tooLarge width p then s.raise .frameTooLarge
  else s.respond (Response.okFrame (packetFrame width p))

/-- ENCODE.W1 (spec 41 R100). -/
def execEncodeW1 (p : Packet) (s : State) : Result := State.whenIdle (.encodeW1 p) s (encodeAccepted .w1 p s)

/-- ENCODE.W2 (spec 41 R100). -/
def execEncodeW2 (p : Packet) (s : State) : Result := State.whenIdle (.encodeW2 p) s (encodeAccepted .w2 p s)

end Sys2Proof.Machine
end

