-- ==== Sys2Proof/Machine/Dispatch.lean ====
section
/-! DEFINITION. The dispatch of an instruction to its meaning: one arm per constructor of Instr. -/

namespace Sys2Proof.Machine

open Sys2Proof

def exec (i : Instr) (s : State) : Host.Outcome State Fault Refusal :=
  match i with
  | .encodeW1 p => Sys2Proof.Machine.execEncodeW1 p s
  | .encodeW2 p => Sys2Proof.Machine.execEncodeW2 p s
  | .decodeW1 => Sys2Proof.Machine.execDecodeW1 s
  | .decodeW2 => Sys2Proof.Machine.execDecodeW2 s
  | .abort ignored => Sys2Proof.Machine.execAbort ignored s
  | .illegalReservedOp ignored => Sys2Proof.Machine.execIllegalReservedOp ignored s
  | .illegalReservedRsvd op wsel rsvd => Sys2Proof.Machine.execIllegalReservedRsvd op wsel rsvd s

end Sys2Proof.Machine
end

