-- ==== Sys2Proof/Machine/Port.lean ====
section
/-! DEFINITION. The command port (spec 44 R164): when a presented command is accepted, and the block's own step, which accepts a waiting command or steps the decoder. -/

namespace Sys2Proof.Machine

open Sys2Proof

/-- A command word with OP = 11 (spec 30 R60). -/
def Command.isAbort (c : Command) : Bool := opField c.word == 0b11#2

/-- The port takes a command: ABORT in every state, any other only with the block idle (spec 44 R164). -/
def State.accepts (c : Command) (s : State) : Bool := Command.isAbort c || s.phase == .idle

/-- The host issues a command (spec 60 R181). ABORT is accepted at once in every state. Any other is accepted at once
where the block is idle and no earlier command waits, and otherwise waits at the port: none is lost or reordered
(spec 44 R164, 70 R209). -/
def issue (c : Command) (s : State) : Result :=
  if Command.isAbort c then exec (decode c) s
  else if s.phase = .idle ∧ s.port = [] then exec (decode c) s
  else .next (s.holdAtPort c)

/-- The block's step (spec 42 R130, 70 R210): the oldest waiting command where the port accepts it, and else the
decoder's step. A block with no enabled step keeps its state. -/
def blockStep (s : State) : Result :=
  match s.port with
  | [] => decoderStep s
  | c :: rest => if s.accepts c then exec (decode c) { s with port := rest } else decoderStep s

end Sys2Proof.Machine
end

