-- ==== Sys2Proof/Machine/Moves.lean ====
section
/-! DEFINITION. The moves of the host, of the transport and of another reader (spec 60 R181, 20 R54), and what each does to the machine. -/

namespace Sys2Proof.Machine

open Sys2Proof

/-- `RX.PUSH` (spec 60 R181, 10 R31): bytes are appended while the stream is OPEN. -/
def rxPush (bytes : List Byte) (s : State) : Result :=
  if s.rx.term = .opened then .next { s with rx := { s.rx with bytes := s.rx.bytes ++ bytes } }
  else .refused .streamNotOpen

/-- `RX.CLOSE` (spec 60 R181): an OPEN stream becomes CLOSED. Delivered bytes stay (20 R41). -/
def rxClose (s : State) : Result :=
  if s.rx.term = .opened then .next { s with rx := { s.rx with term := .closed } }
  else .refused .streamNotOpen

/-- `RX.FAIL` (spec 60 R181): an OPEN stream becomes ERRORED. Delivered bytes stay (20 R41). -/
def rxFail (s : State) : Result :=
  if s.rx.term = .opened then .next { s with rx := { s.rx with term := .errored } }
  else .refused .streamNotOpen

/-- `RX.REOPEN` (spec 60 R181, 92 D27): an idle block finds a fresh, empty, OPEN stream. While a DECODE is in
progress there is no such move (92 D26). The phase looked at is that of the one instance whose move it is (log 19). -/
def rxReopen (s : State) : Result :=
  if s.phase = .idle then .next { s with rx := ⟨[], .opened⟩ } else .refused .reopenWhileBusy

/-- Another reader takes the stream's next byte, if there is one (spec 20 R54). -/
def otherRead (s : State) : State := s.takeByte

/-- What a move does (spec 60 R181). -/
def runMove (m : Move) (s : State) : Result :=
  match m with
  | .block => blockStep s
  | .issue c => issue c s
  | .push bytes => rxPush bytes s
  | .close => rxClose s
  | .fail => rxFail s
  | .reopen => rxReopen s
  | .reset => .next s.applyReset
  | .txWrite _ => .next s
  | .readLog => .next s
  | .otherRead => .next (otherRead s)

/-- The next move of the schedule; the block's own step where the schedule is used up, so that an enabled block step
is always taken in the end (weak fairness, spec 70 R210). -/
def nextMove (s : State) : Result :=
  match s.schedule with
  | [] => blockStep s
  | m :: rest => runMove m { s with schedule := rest }

/-- The state in which the very next step accepts command `c`: the host's issue of it stands first in the schedule. A
command other than ABORT is accepted only by an idle block before which no other command waits (spec 44 R164), so the
block is made so for it; for ABORT nothing else changes. -/
def State.presenting (c : Command) (s : State) : State :=
  if Command.isAbort c then { s with schedule := .issue c :: s.schedule }
  else { s with phase := .idle, port := [], schedule := .issue c :: s.schedule }

end Sys2Proof.Machine
end

