-- ==== Sys2Proof/Machine/Step.lean ====
section
/-! DEFINITION. One step of the machine, and where it fetches its next instruction. -/

namespace Sys2Proof.Machine

open Sys2Proof

/-- One step: the next move of the schedule, or the block's own step (spec 70 R210). -/
def step (s : State) : Host.Outcome State Fault Refusal := nextMove s

/-- `s` with the command word `w` and the zero Packet as the next command the host issues, so that the next step
accepts it. A command word is one byte: of `w` only the low 8 bits are used, and `nbits` changes nothing. -/
def State.withFetchWord (s : State) (_nbits w : Nat) : State := s.presenting ⟨BitVec.ofNat 8 w, Packet.zero⟩

end Sys2Proof.Machine
end

