-- ==== Sys2Proof/Machine/Reader.lean ====
section
/-! DEFINITION. The exact reader (spec 43) and DECODE as the sequential algorithm of spec 42 R120, both as functions of the receive stream. The decoder state machine of Machine/Decoder.lean is stated equal to this algorithm (spec 42 R135). -/

namespace Sys2Proof.Machine

open Sys2Proof

/-- What the transport's `readSome` answers (spec 43 R151). -/
inductive SomeRead where
  /-- Bytes, with the stream they were removed from; zero bytes mean end of stream. -/
  | bytes (got : List Byte) (rx : RxStream)
  /-- The transport has failed. -/
  | error (rx : RxStream)
  /-- The stream is empty and open: the read blocks. -/
  | blocks (rx : RxStream)
deriving DecidableEq, Repr

/-- What a ReadExact comes to (spec 43 R150). -/
inductive ExactRead where
  /-- The bytes asked for. -/
  | done (got : List Byte) (rx : RxStream)
  /-- The read failed; the bytes it had gathered stay consumed and are not returned (spec 43 R155). -/
  | failed (code : ResultCode) (rx : RxStream)
  /-- The read still waits on an open stream. -/
  | waits (rx : RxStream)
deriving DecidableEq, Repr

/-- What a DECODE comes to on a stream as it stands (spec 42 R120). -/
inductive FrameRead where
  /-- The operation ended with a response, leaving this stream. -/
  | responded (r : Response) (rx : RxStream)
  /-- The operation waits for a byte. -/
  | waits (rx : RxStream)
deriving DecidableEq, Repr

/-- The chunk size readSome uses: the transport's wish `k`, brought into the range 1 to `min(m, available)` that
spec 43 R151 leaves it (for `m` and `available` at least 1). -/
def chunk (k m available : Nat) : Nat := max 1 (min k (min m available))

/-- `readSome(m)` (spec 43 R151), for m at least 1. `k` is the transport's choice of chunk size. -/
def readSome (k m : Nat) (rx : RxStream) : SomeRead :=
  match rx.bytes with
  | [] =>
    match rx.term with
    | .opened => .blocks rx
    | .closed => .bytes [] rx
    | .errored => .error rx
  | b :: rest =>
    .bytes ((b :: rest).take (chunk k m (b :: rest).length)) { rx with bytes := (b :: rest).drop (chunk k m (b :: rest).length) }

/-- The loop of ReadExact (spec 43 R150): `need` bytes are still to come, `got` are gathered. `draw` is the transport's
free choice of chunk sizes, one for each count of bytes that can be available (log 13). `fuel` bounds the number of
rounds: every round gathers a byte, so `need` rounds are enough. -/
def readExactLoop (draw : Nat → Nat) : Nat → Nat → List Byte → RxStream → ExactRead
  | _, 0, got, rx => .done got rx
  | 0, _ + 1, _, rx => .waits rx
  | fuel + 1, need + 1, got, rx =>
    match readSome (draw rx.bytes.length) (need + 1) rx with
    | .error rx' => .failed .ioError rx'
    | .blocks rx' => .waits rx'
    | .bytes [] rx' => .failed .endOfStream rx'
    | .bytes (b :: r) rx' => readExactLoop draw fuel (need + 1 - (b :: r).length) (got ++ b :: r) rx'

/-- `ReadExact(n)` (spec 43 R150). -/
def readExact (draw : Nat → Nat) (n : Nat) (rx : RxStream) : ExactRead := readExactLoop draw n n [] rx

/-- A read inside a DECODE: its bytes go on to `k`, and its failure ends the DECODE (spec 43 R155). -/
def ExactRead.andThen (r : ExactRead) (k : List Byte → RxStream → FrameRead) : FrameRead :=
  match r with
  | .done got rx => k got rx
  | .failed code rx => .responded (Response.error code) rx
  | .waits rx => .waits rx

/-- Steps 5 to 7 of DECODE (spec 42 R124, R125): the checksum over LENGTH as received and `rest`, and the Packet. -/
def answerOf (lenb rest : List Byte) (c : Byte) : Response :=
  if fcs (lenb ++ rest) ≠ c then Response.error .checksumError
  else Response.okPacket (packetOf (rest.getD 0 0) (rest.getD 1 0) (rest.drop 2))

/-- DECODE (spec 42 R120) on the receive stream as it stands. -/
def decodeFrame (draw : Nat → Nat) (width : Width) (rx : RxStream) : FrameRead :=
  (readExact draw 1 rx).andThen fun sof rx1 =>
    if sof.getD 0 0 ≠ Config.sof then .responded (Response.error .framingError) rx1
    else
      (readExact draw width.bytes rx1).andThen fun lenb rx2 =>
        (readExact draw ((fromLe lenb).toNat + Config.cmdBytes) rx2).andThen fun rest rx3 =>
          (readExact draw 1 rx3).andThen fun c rx4 => .responded (answerOf lenb rest (c.getD 0 0)) rx4

end Sys2Proof.Machine
end

