-- ==== Sys2Proof/Machine/System.lean ====
section
/-! DEFINITION. A system of several codec instances (spec 60 R185): each with registers, command port and log of its own, and each linked to a receive stream that other instances may read too (spec 20 R54). -/

namespace Sys2Proof.Machine

open Sys2Proof

/-- Several instances, the receive streams of the system, and for each instance the stream it reads. An instance's own
field `rx` is what it last saw of that stream: a step loads it first. -/
structure System where
  insts : List State
  streams : List RxStream
  link : List Nat
deriving DecidableEq, Repr

/-- `n` instances after reset (spec 60 R185: instances start idle), each with a stream of its own, no transport open.
DESIGN CHOICE (log 21), unsafe: which instances share a stream is open in the spec; from here none do, since no step changes
`link`. A `System` with any other `link` is a state of the model too. The instances' equal registers are log 20. -/
def System.reset (n : Nat) : System where
  insts := List.replicate n State.reset
  streams := List.replicate n RxStream.noTransport
  link := List.range n

/-- The system after instance `k` has gone to `t`: its state and the stream it reads are stored, nothing else changes. -/
def System.store (sys : System) (k j : Nat) (t : State) : System :=
  { sys with insts := sys.insts.set k t, streams := sys.streams.set j t.rx }

/-- One step of instance `k`, on the stream it is linked to (spec 20 R54, 60 R185). Which `k` steps next is free: every
interleaving is some sequence of them. An index that names no instance or no stream has no step.
DESIGN CHOICE (log 19): `RX.REOPEN` of a shared stream asks only that instance `k` is idle, so it may replace the stream
under a DECODE of another instance; the spec's 'the block is idle' (spec 60 R181, 92 D26) does not say which block. -/
def System.stepInst (k : Nat) (sys : System) : Host.Outcome System Fault Refusal :=
  match sys.insts[k]?, sys.link[k]? with
  | some s, some j =>
    match sys.streams[j]? with
    | some rx =>
      match step { s with rx := rx } with
      | .next t => .next (sys.store k j t)
      | .fault r => .fault r
      | .refused r => .refused r
    | none => .next sys
  | _, _ => .next sys

end Sys2Proof.Machine
end

