-- ==== Sys2Proof/Safety.lean ====
section
/-! DEFINITION. The terms that claims about the machine use: the invariant of every step, which moves are enabled, what the host can observe, and the commands of a width. -/

namespace Sys2Proof.Machine

open Sys2Proof

/-! The invariant. -/

/-- A frame as ENCODE answers it: SOF first, between the shortest and the longest length of an encoded frame (log 17),
and a checksum that closes the fold (spec 40 R84 item 3). -/
def frameShaped (f : List Byte) : Bool :=
  f.head? == some Config.sof && 5 ≤ f.length && f.length ≤ frameMax .w2 && foldXor 0 f.tail == 0xFF#8

/-- A Response as spec 10 R24 allows it: OK carries exactly one of a Packet, whose fields are in place (40 R81), and a
frame; any other code carries neither. -/
def Response.shaped (r : Response) : Bool :=
  match r.code, r.pkt, r.frame with
  | .ok, some p, none => inPlace p && p.payload.length ≤ decMaxPayload .w2
  | .ok, none, some f => frameShaped f
  | .ok, _, _ => false
  | _, none, none => true
  | _, _, _ => false

/-- The payload buffer is canonical and lists indexes 0 to 65534 only (spec 10 R26). -/
abbrev State.PbufInv (s : State) : Prop := s.pbuf.wf = true ∧ ∀ c ∈ s.pbuf, c.1 < Config.pbufBytes

/-- The decoder's registers agree with its position in the frame (spec 42 R132): D_LEN1 is used only when `w = 2`
(10 R28); a one-byte LENGTH is below 256; in D_PAY a payload byte is still to come; in D_FCS none is. -/
abbrev State.DecoderInv (s : State) : Prop :=
  (s.phase = .dLen1 → s.w = .w2 ∧ s.L.toNat < 256) ∧
  (s.w = .w1 → (s.phase = .dHdr ∨ s.phase = .dCmd ∨ s.phase = .dPay ∨ s.phase = .dFcs) → s.L.toNat < 256) ∧
  (s.phase = .dPay → s.idx.toNat < s.L.toNat) ∧
  (s.phase = .dFcs → s.idx = s.L)

/-- No ABORT waits at the port: it is accepted in every state (spec 44 R164). -/
abbrev State.PortInv (s : State) : Prop := ∀ c ∈ s.port, Command.isAbort c = false

/-- Every response of the log has the form of spec 10 R24. -/
abbrev State.LogInv (s : State) : Prop := ∀ r ∈ s.log, r.shaped = true

/-- The invariant that holds after reset and that every step keeps. -/
abbrev State.Inv (s : State) : Prop := s.PbufInv ∧ s.DecoderInv ∧ s.PortInv ∧ s.LogInv

/-! Moves. -/

/-- The condition of a move in the table of spec 60 R181. -/
def Move.enabled (m : Move) (s : State) : Bool :=
  match m with
  | .push _ => s.rx.term == .opened
  | .close => s.rx.term == .opened
  | .fail => s.rx.term == .opened
  | .reopen => s.phase == .idle
  | .block => true
  | .issue _ => true
  | .reset => true
  | .txWrite _ => true
  | .readLog => true
  | .otherRead => true

/-- The next move of the schedule may be made. -/
def State.nextMoveEnabled (s : State) : Bool :=
  match s.schedule with
  | [] => true
  | m :: _ => Move.enabled m s

/-- No waiting command can be accepted, so the block's step is the decoder's. -/
def State.portBlocked (s : State) : Bool :=
  match s.port with
  | [] => true
  | c :: _ => !s.accepts c

/-- A move of the transport on the stream of a DECODE, or of the block: no command, no reset, no reopening and no other
reader. These are the moves under which spec 42 R135 compares the state machine with the algorithm. -/
def Move.isTransport : Move → Bool
  | .block => true
  | .push _ => true
  | .close => true
  | .fail => true
  | .issue _ => false
  | .reopen => false
  | .reset => false
  | .txWrite _ => true
  | .readLog => true
  | .otherRead => false

/-- A move of an agent other than the block and a host that starts an operation (spec 41 R105). -/
def Move.isOther : Move → Bool
  | .block => false
  | .push _ => true
  | .close => true
  | .fail => true
  | .issue c => Command.isAbort c
  | .reopen => true
  | .reset => true
  | .txWrite _ => true
  | .readLog => true
  | .otherRead => true

/-- The bytes that a sequence of moves delivers, in order. -/
def pushedBytes : List Move → List Byte
  | [] => []
  | .push bytes :: rest => bytes ++ pushedBytes rest
  | _ :: rest => pushedBytes rest

/-! What is observable. -/

/-- Two states agree in everything but the transient registers of spec 10 R26 other than `phase`. -/
abbrev State.sameOutside (s t : State) : Prop :=
  s.phase = t.phase ∧ s.rx = t.rx ∧ s.log = t.log ∧ s.port = t.port ∧ s.schedule = t.schedule ∧ s.draws = t.draws

/-- Two runs come to the same as far as anything outside the transient registers can tell. -/
def sameObserved : Result → Result → Prop
  | .next s, .next t => s.sameOutside t
  | .fault a, .fault b => a = b
  | .refused a, .refused b => a = b
  | _, _ => False

/-! The commands of a width. -/

/-- ENCODE at a width. -/
def encodeInstr : Width → Packet → Instr
  | .w1, p => .encodeW1 p
  | .w2, p => .encodeW2 p

/-- DECODE at a width. -/
def decodeInstr : Width → Instr
  | .w1 => .decodeW1
  | .w2 => .decodeW2

/-- The command of DECODE at a width: word 0x02 or 0x06 (spec 30 R60). -/
def decodeCommand (width : Width) : Command := encode (decodeInstr width)

/-- An idle block at whose port nothing waits and whose payload buffer is canonical, about to be issued a DECODE at
`width`; after that the block runs by itself. -/
abbrev State.readyToDecode (s : State) (width : Width) : Prop :=
  s.phase = .idle ∧ s.port = [] ∧ s.pbuf.wf = true ∧ s.schedule = [.issue (decodeCommand width)]

/-- `n` steps from `s`. -/
abbrev runSteps (n : Nat) (s : State) : Result := Host.Core.run Sys2Proof.core n s

/-- `s` with byte `i` of a byte sequence changed in bit `k` (spec 42 R138). -/
def flipBit (f : List Byte) (i k : Nat) : List Byte := f.set i (f.getD i 0 ^^^ (1#8 <<< k))

end Sys2Proof.Machine
end

