-- ==== Sys2Proof/Certificates/Slice0/Obligations.lean ====
section
/-! DEFINITION. The statements for the provers, each a proposition about the model, in the order of the spec's files. -/

open Sys2Proof Sys2Proof.Machine

/-! Command words (spec 30). -/

/-- Decoding the encoding of a well-formed instruction gives it back, and decoding any presentable command gives a
well-formed instruction whose word is the command's: no bit of a command word is dropped. -/
def Obligations.CommandRoundTrip : Prop :=
  (∀ i : Instr, i.wellFormed = true → decode (encode i) = i) ∧
  (∀ c : Command, c.pkt.presentable = true → (decode c).wellFormed = true) ∧
  (∀ c : Command, (encode (decode c)).word = c.word)

/-- A few words of spec 30 R60 and 95 L2-C, written out. -/
def Obligations.CommandWordsDecode : Prop :=
  ∀ p : Packet,
    decode ⟨0b00000001#8, p⟩ = .encodeW1 p ∧ decode ⟨0b00000101#8, p⟩ = .encodeW2 p ∧
    decode ⟨0b00000010#8, p⟩ = .decodeW1 ∧ decode ⟨0b00000110#8, p⟩ = .decodeW2 ∧
    decode ⟨0b00000011#8, p⟩ = .abort 0b000000#6 ∧ decode ⟨0b11111111#8, p⟩ = .abort 0b111111#6 ∧
    decode ⟨0b11111100#8, p⟩ = .illegalReservedOp 0b111111#6 ∧
    decode ⟨0b00001101#8, p⟩ = .illegalReservedRsvd .encode true 0b00001#5

/-- The fields of spec 30 R60 by arithmetic on the word: OP is the word modulo 4, WSEL the next bit, RSVD what lies above. -/
def Obligations.OpFieldSelectsOperation : Prop :=
  ∀ (word : Byte) (p : Packet),
    (word.toNat % 4 = 0 → ∃ x, decode ⟨word, p⟩ = .illegalReservedOp x ∧ x.toNat = word.toNat / 4) ∧
    (word.toNat % 4 = 3 → ∃ x, decode ⟨word, p⟩ = .abort x ∧ x.toNat = word.toNat / 4) ∧
    (word.toNat % 4 = 1 → word.toNat / 8 = 0 →
      decode ⟨word, p⟩ = if word.toNat / 4 % 2 = 1 then .encodeW2 p else .encodeW1 p) ∧
    (word.toNat % 4 = 2 → word.toNat / 8 = 0 →
      decode ⟨word, p⟩ = if word.toNat / 4 % 2 = 1 then .decodeW2 else .decodeW1) ∧
    (word.toNat % 4 = 1 → word.toNat / 8 ≠ 0 →
      ∃ r, decode ⟨word, p⟩ = .illegalReservedRsvd .encode (decide (word.toNat / 4 % 2 = 1)) r ∧ r.toNat = word.toNat / 8) ∧
    (word.toNat % 4 = 2 → word.toNat / 8 ≠ 0 →
      ∃ r, decode ⟨word, p⟩ = .illegalReservedRsvd .decode (decide (word.toNat / 4 % 2 = 1)) r ∧ r.toNat = word.toNat / 8)

/-- Spec 30 R70: the byte offsets of a frame's fields, for every LENGTH the field can hold. -/
def Obligations.FrameLayout : Prop :=
  ∀ (width : Width) (header command : Byte) (payload : List Byte), payload.length ≤ decMaxPayload width →
    let f := frameAround (frameBody width (BitVec.ofNat 16 payload.length) header command payload)
    f.length = payload.length + width.bytes + 4 ∧
    f[0]? = some 0xFE#8 ∧
    (match width with
      | .w1 => ∃ b0, f[1]? = some b0 ∧ b0.toNat = payload.length
      | .w2 => ∃ b0 b1, f[1]? = some b0 ∧ f[2]? = some b1 ∧ b0.toNat + 256 * b1.toNat = payload.length) ∧
    f[1 + width.bytes]? = some header ∧
    f[2 + width.bytes]? = some command ∧
    (∀ k, k < payload.length → f[3 + width.bytes + k]? = payload[k]?) ∧
    f[3 + width.bytes + payload.length]? = some (fcs ((f.drop 1).take (payload.length + width.bytes + 2)))

/-! Header packer and checksum generator (spec 40). -/

/-- Spec 30 R64: the two fields of the HEADER byte, for fields in place. -/
def Obligations.HeaderByteFields : Prop :=
  ∀ t s : Byte, t &&& 0x1F#8 = 0 → s &&& 0xE0#8 = 0 →
    hdrPack t s = (t &&& 0xE0#8) ||| (s &&& 0x1F#8) ∧
    (hdrPack t s).extractLsb' 5 3 = (t >>> 5).setWidth 3 ∧ (hdrPack t s).extractLsb' 0 5 = s.setWidth 5 ∧
    hdrPack t s = ((t >>> 5) <<< 5) ||| s

/-- Spec 40 R82: the laws of the header unit. -/
def Obligations.HeaderUnitLaws : Prop :=
  (∀ h : Byte, hdrPack (hdrMessageType h) (hdrSubSystem h) = h) ∧
  (∀ t s : Byte, hdrMessageType (hdrPack t s) = t &&& 0xE0#8 ∧ hdrSubSystem (hdrPack t s) = s &&& 0x1F#8 ∧
    ((hdrMessageType (hdrPack t s) = t ∧ hdrSubSystem (hdrPack t s) = s) ↔ (t &&& 0x1F#8 = 0 ∧ s &&& 0xE0#8 = 0))) ∧
  (∀ t s : Byte, (t &&& 0xE0#8) &&& 0xE0#8 = t &&& 0xE0#8 ∧ (s &&& 0x1F#8) &&& 0x1F#8 = s &&& 0x1F#8) ∧
  (∀ h : Byte, ∃ t s : Byte, (t &&& 0x1F#8 = 0 ∧ s &&& 0xE0#8 = 0 ∧ hdrPack t s = h) ∧
    ∀ t' s' : Byte, t' &&& 0x1F#8 = 0 → s' &&& 0xE0#8 = 0 → hdrPack t' s' = h → t' = t ∧ s' = s)

/-- Spec 40 R84: the algebra of FCS. -/
def Obligations.ChecksumAlgebra : Prop :=
  (∀ a b : List Byte, a.Perm b → fcs a = fcs b) ∧
  (∀ a b : List Byte, fcs (a ++ b) = foldXor (fcs a) b) ∧
  (∀ b : List Byte, foldXor 0xFF#8 (b ++ [fcs b]) = 0x00#8 ∧ foldXor 0x00#8 (frameAround b).tail = 0xFF#8) ∧
  (∀ b : List Byte, fcs b = 0xFF#8 ^^^ foldXor 0x00#8 b ∧ fcs b = ~~~(foldXor 0x00#8 b))

/-- Spec 40 R85, for a body and a corrupted body of the same length: the corruption goes undetected exactly when its bits
cancel; a single flipped bit is always detected, in the checksum byte too; two flips of one bit position in two bytes, and a
swap of two bytes, never are. -/
def Obligations.ChecksumErrorDetection : Prop :=
  (∀ b b' : List Byte, b.length = b'.length →
    fcs b' = fcs b ^^^ foldXor 0x00#8 (List.zipWith (· ^^^ ·) b b') ∧
    (fcs b' = fcs b ↔ foldXor 0x00#8 (List.zipWith (· ^^^ ·) b b') = 0x00#8)) ∧
  (∀ (b : List Byte) (i k : Nat), i < b.length → k < 8 → fcs (flipBit b i k) ≠ fcs b) ∧
  (∀ (b : List Byte) (k : Nat), k < 8 → fcs b ^^^ (1#8 <<< k) ≠ fcs b) ∧
  (∀ (b : List Byte) (i j k : Nat), i < b.length → j < b.length → i ≠ j → fcs (flipBit (flipBit b i k) j k) = fcs b) ∧
  (∀ (b : List Byte) (i j : Nat), i < b.length → j < b.length →
    fcs ((b.set i (b.getD j 0)).set j (b.getD i 0)) = fcs b)

/-! ENCODE (spec 41). -/

/-- Spec 41 R103: a payload that fits is answered by the frame, which is written out here; nothing else changes. -/
def Obligations.EncodeAnswersFrame : Prop :=
  ∀ (p : Packet) (s : State) (header len0 len1 : Byte) (body1 body2 : List Byte), s.phase = .idle →
    header = (p.messageType &&& 0xE0#8) ||| (p.subSystem &&& 0x1F#8) →
    len0 = BitVec.ofNat 8 p.payload.length → len1 = BitVec.ofNat 8 (p.payload.length / 256) →
    body1 = len0 :: header :: p.commandId :: p.payload →
    body2 = len0 :: len1 :: header :: p.commandId :: p.payload →
    (p.payload.length ≤ 253 →
      exec (.encodeW1 p) s =
        .next { s with log := s.log ++ [⟨.ok, none, some (0xFE#8 :: (body1 ++ [foldXor 0xFF#8 body1]))⟩] } ∧
      (0xFE#8 :: (body1 ++ [foldXor 0xFF#8 body1])).length = p.payload.length + 1 + 4) ∧
    (p.payload.length ≤ 65533 →
      exec (.encodeW2 p) s =
        .next { s with log := s.log ++ [⟨.ok, none, some (0xFE#8 :: (body2 ++ [foldXor 0xFF#8 body2]))⟩] } ∧
      (0xFE#8 :: (body2 ++ [foldXor 0xFF#8 body2])).length = p.payload.length + 2 + 4)

/-- Spec 41 R101: FRAME_TOO_LARGE exactly above 253 and 65533 payload bytes, with no frame; and the largest LENGTH that an
encoder writes. -/
def Obligations.EncodeFrameTooLarge : Prop :=
  ∀ (p : Packet) (s : State) (n bound1 bound2 : Nat), s.phase = .idle → n = p.payload.length →
    bound1 = 2 ^ (8 * Width.w1.bytes) - 1 → bound2 = 2 ^ (8 * Width.w2.bytes) - 1 →
    (exec (.encodeW1 p) s = .next { s with log := s.log ++ [⟨.frameTooLarge, none, none⟩] } ↔ n + 2 > bound1) ∧
    (n + 2 > bound1 ↔ n > 253) ∧
    (exec (.encodeW2 p) s = .next { s with log := s.log ++ [⟨.frameTooLarge, none, none⟩] } ↔ n + 2 > bound2) ∧
    (n + 2 > bound2 ↔ n > 65533) ∧
    (∀ t f, exec (.encodeW1 p) s = .next t → t.log = s.log ++ [⟨.ok, none, some f⟩] →
      ∃ b0 : Byte, f[1]? = some b0 ∧ b0.toNat ≤ 0xFD) ∧
    (∀ t f, exec (.encodeW2 p) s = .next t → t.log = s.log ++ [⟨.ok, none, some f⟩] →
      ∃ b0 b1 : Byte, f[1]? = some b0 ∧ f[2]? = some b1 ∧ b0.toNat + 256 * b1.toNat ≤ 0xFFFD)

/-- Spec 41 R105: ENCODE ends in the step that accepts it, writes no register, answers by its operands alone, and commutes
with every other agent's move. -/
def Obligations.EncodeIsAtomicAndDeterministic : Prop :=
  ∀ (width : Width) (p : Packet),
    (∃ r : Response, ∀ s : State, s.phase = .idle →
      exec (encodeInstr width p) s = .next { s with log := s.log ++ [r] }) ∧
    (∀ (m : Move) (s t : State), m.isOther = true → s.phase = .idle → runMove m s = .next t →
      ∃ u v, exec (encodeInstr width p) t = .next u ∧ exec (encodeInstr width p) s = .next v ∧ runMove m v = .next u)

/-- Spec 41 R106 item 4: operands out of form are masked, not refused. -/
def Obligations.EncodeMasksOutOfFormFields : Prop :=
  ∀ (width : Width) (p : Packet) (s : State), s.phase = .idle →
    exec (encodeInstr width p) s =
      exec (encodeInstr width { p with messageType := p.messageType &&& 0xE0#8, subSystem := p.subSystem &&& 0x1F#8 }) s

/-- Spec 41 R106 item 6: below 256 payload bytes the two widths give the same checksum byte. -/
def Obligations.EncodeChecksumSameAtBothWidths : Prop :=
  ∀ p : Packet, p.payload.length < 256 → (packetFrame .w1 p).getLast? = (packetFrame .w2 p).getLast?

/-! DECODE (spec 42). -/

/-- Spec 42 R131: the acceptance of a DECODE. -/
def Obligations.DecodeAccepted : Prop :=
  ∀ s : State, s.phase = .idle →
    exec .decodeW1 s = .next { s with phase := .dSof, w := .w1 } ∧
    exec .decodeW2 s = .next { s with phase := .dSof, w := .w2 }

/-- Spec 42 R132: the table of the byte step, row by row. -/
def Obligations.DecoderByteStep : Prop :=
  ∀ (s u : State) (b : Byte) (rest : List Byte), s.portBlocked = true → s.rx.bytes = b :: rest →
    u = { s with rx := ⟨rest, s.rx.term⟩ } →
    (s.phase = .dSof → b ≠ 0xFE#8 →
      blockStep s = .next { u with phase := .idle, log := s.log ++ [⟨.framingError, none, none⟩] }) ∧
    (s.phase = .dSof → b = 0xFE#8 → blockStep s = .next { u with acc := 0xFF#8, phase := .dLen0 }) ∧
    (s.phase = .dLen0 → blockStep s =
      .next { u with L := b.setWidth 16, acc := s.acc ^^^ b, phase := if s.w = .w2 then .dLen1 else .dHdr }) ∧
    (s.phase = .dLen1 → blockStep s =
      .next { u with L := s.L ||| (b.setWidth 16 <<< 8), acc := s.acc ^^^ b, phase := .dHdr }) ∧
    (s.phase = .dHdr → blockStep s = .next { u with hdr := b, acc := s.acc ^^^ b, phase := .dCmd }) ∧
    (s.phase = .dCmd → blockStep s =
      .next { u with cmd := b, acc := s.acc ^^^ b, idx := 0, phase := if s.L = 0 then .dFcs else .dPay }) ∧
    (s.phase = .dPay → s.idx.toNat < 65535 → blockStep s =
      .next { u with
        pbuf := Memory.write s.pbuf s.idx.toNat b
        acc := s.acc ^^^ b
        idx := s.idx + 1
        phase := if s.idx + 1 = s.L then .dFcs else .dPay }) ∧
    (s.phase = .dFcs → b ≠ s.acc →
      blockStep s = .next { u with phase := .idle, log := s.log ++ [⟨.checksumError, none, none⟩] }) ∧
    (s.phase = .dFcs → b = s.acc → blockStep s = .next { u with
      phase := .idle
      log := s.log ++ [⟨.ok, some ⟨s.hdr &&& 0xE0#8, s.hdr &&& 0x1F#8, s.cmd,
        (List.range s.L.toNat).map (Memory.read s.pbuf)⟩, none⟩] })

/-- What a canonical payload buffer reads after `pbuf[a] <- b`: the byte at `a`, and everywhere else what it read before. -/
def Obligations.PayloadBufferReadAfterWrite : Prop :=
  ∀ (m : Memory) (a : Nat) (b : Byte), m.wf = true →
    Memory.read (Memory.write m a b) a = b ∧
    ∀ a', a' ≠ a → Memory.read (Memory.write m a b) a' = Memory.read m a'

/-- The model's own fault (log 8): a payload step whose `idx` is no index of the buffer stops by name, and it can be so only in a
state that the invariant rules out. -/
def Obligations.PayloadIndexOutsideBufferStops : Prop :=
  ∀ (s : State) (b : Byte) (rest : List Byte), s.portBlocked = true → s.phase = .dPay → s.rx.bytes = b :: rest →
    ¬ s.idx.toNat < 65535 → blockStep s = .fault .pbufIndex ∧ ¬ s.Inv

/-- Spec 42 R133: the terminal step. -/
def Obligations.DecoderTerminalStep : Prop :=
  ∀ s : State, s.portBlocked = true → s.phase ≠ .idle → s.rx.bytes = [] →
    (s.rx.term = .closed →
      blockStep s = .next { s with phase := .idle, log := s.log ++ [⟨.endOfStream, none, none⟩] }) ∧
    (s.rx.term = .errored →
      blockStep s = .next { s with phase := .idle, log := s.log ++ [⟨.ioError, none, none⟩] })

/-- On an open, empty stream the decoder holds, for any number of steps (a hold is a step that keeps the state, log 10), and
each of the moves that spec 42 R134 names lifts the hold. -/
def Obligations.DecoderHolds : Prop :=
  ∀ s : State, s.Inv → s.portBlocked = true → s.phase ≠ .idle → s.rx = ⟨[], .opened⟩ →
    blockStep s = .next s ∧
    (s.schedule = [] → ∀ n, runSteps n s = .next s) ∧
    (∀ b rest, ∃ t u, runMove (.push (b :: rest)) s = .next t ∧ blockStep t = .next u ∧ u.rx = ⟨rest, .opened⟩) ∧
    (∃ t u, runMove .close s = .next t ∧ blockStep t = .next u ∧ u.phase = .idle ∧ u.log = s.log ++ [⟨.endOfStream, none, none⟩]) ∧
    (∃ t u, runMove .fail s = .next t ∧ blockStep t = .next u ∧ u.phase = .idle ∧ u.log = s.log ++ [⟨.ioError, none, none⟩]) ∧
    (∀ c, Command.isAbort c = true → ∃ t, runMove (.issue c) s = .next t ∧ t.phase = .idle ∧
      t.log = s.log ++ [⟨.cancelled, none, none⟩]) ∧
    (∃ t, runMove .reset s = .next t ∧ t.phase = .idle ∧ t.log = s.log)

/-- The bytes a DECODE consumes, by outcome (the table of spec 42 R126 for the outcomes that the algorithm of R120 has), and
that it never consumes a byte beyond the frame's FCS. -/
def Obligations.DecodeConsumption : Prop :=
  ∀ (draw : Nat → Nat) (width : Width) (rx : RxStream),
    (∀ r rx', decodeFrame draw width rx = .responded r rx' →
      ∃ used : List Byte, rx.bytes = used ++ rx'.bytes ∧ rx'.term = rx.term ∧
        match r.code with
        | .ok => used.length = (fromLe ((used.drop 1).take width.bytes)).toNat + width.bytes + 4
        | .checksumError => used.length = (fromLe ((used.drop 1).take width.bytes)).toNat + width.bytes + 4
        | .framingError => used.length = 1
        | .endOfStream => rx'.bytes = [] ∧ rx.term = .closed ∧
            (width.bytes + 1 ≤ used.length → used.length < (fromLe ((used.drop 1).take width.bytes)).toNat + width.bytes + 4)
        | .ioError => rx'.bytes = [] ∧ rx.term = .errored ∧
            (width.bytes + 1 ≤ used.length → used.length < (fromLe ((used.drop 1).take width.bytes)).toNat + width.bytes + 4)
        | .frameTooLarge => False
        | .cancelled => False
        | .illegalCommand => False) ∧
    (∀ rx', decodeFrame draw width rx = .waits rx' → rx.term = .opened ∧ rx' = ⟨[], .opened⟩)

/-- Spec 42 R129: the decoder accepts every LENGTH value, and can return a Packet that ENCODE would refuse. -/
def Obligations.DecoderAcceptsEveryLength : Prop :=
  (∀ (draw : Nat → Nat) (width : Width) (header command : Byte) (payload rest : List Byte) (term : RxTerm),
    payload.length ≤ 2 ^ (8 * width.bytes) - 1 →
    decodeFrame draw width
      ⟨frameAround (frameBody width (BitVec.ofNat 16 payload.length) header command payload) ++ rest, term⟩ =
      .responded ⟨.ok, some ⟨header &&& 0xE0#8, header &&& 0x1F#8, command, payload⟩, none⟩ ⟨rest, term⟩) ∧
  (∀ (draw : Nat → Nat) (width : Width) (rx rx' : RxStream) (r : Response),
    decodeFrame draw width rx = .responded r rx' → r.code ≠ .frameTooLarge) ∧
  (∀ width : Width, ∃ (draw : Nat → Nat) (rx rx' : RxStream) (p : Packet),
    decodeFrame draw width rx = .responded ⟨.ok, some p, none⟩ rx' ∧ packetWF p width = false)

/-- Spec 42 R135 for a DECODE that is not aborted: under every schedule of deliveries, closings, failings and block steps, the
state machine answers what the algorithm of R120 answers on the bytes delivered, and leaves the same stream; while it has not
answered it has appended nothing, and where it holds, the algorithm waits; and in the end it answers or holds. -/
def Obligations.DecoderRefinesAlgorithm : Prop :=
  ∀ (draw : Nat → Nat) (width : Width) (s t : State) (n : Nat) (seen : RxStream),
    s.phase = .dSof → s.w = width → s.port = [] → s.pbuf.wf = true → (∀ m ∈ s.schedule, m.isTransport = true) →
    runSteps n s = .next t → seen = ⟨s.rx.bytes ++ pushedBytes (s.schedule.take n), t.rx.term⟩ →
    (t.phase = .idle → ∃ r, decodeFrame draw width seen = .responded r t.rx ∧ t.log = s.log ++ [r]) ∧
    (t.phase ≠ .idle → t.log = s.log ∧ (t.rx = ⟨[], .opened⟩ → decodeFrame draw width seen = .waits t.rx)) ∧
    (s.schedule.length + seen.bytes.length + 1 ≤ n → t.phase = .idle ∨ t.rx = ⟨[], .opened⟩)

/-- Spec 42 R136, on the machine: a frame that ENCODE returns for a well-formed Packet decodes to that Packet, and exactly
the frame is consumed. -/
def Obligations.RoundTripOnTheMachine : Prop :=
  ∀ (width : Width) (p : Packet) (e e' s : State) (f rest : List Byte), packetWF p width = true → e.phase = .idle →
    exec (encodeInstr width p) e = .next e' → e'.log = e.log ++ [⟨.ok, none, some f⟩] →
    s.readyToDecode width → s.rx.bytes = f ++ rest →
    ∃ t, runSteps (f.length + 1) s = .next t ∧ t.phase = .idle ∧ t.log = s.log ++ [⟨.ok, some p, none⟩] ∧
      t.rx = ⟨rest, s.rx.term⟩

/-- Spec 42 R138: what the decoder makes of a frame with one bit flipped, by the region the bit lies in. -/
def Obligations.SingleBitFlips : Prop :=
  (∀ (width : Width) (p : Packet) (s : State) (rest : List Byte) (i k : Nat), packetWF p width = true → k < 8 →
    i < (packetFrame width p).length → s.readyToDecode width →
    s.rx.bytes = flipBit (packetFrame width p) i k ++ rest →
    (width.bytes < i → ∃ t, runSteps ((packetFrame width p).length + 1) s = .next t ∧ t.phase = .idle ∧
      t.log = s.log ++ [⟨.checksumError, none, none⟩] ∧ t.rx = ⟨rest, s.rx.term⟩) ∧
    (i = 0 → ∃ t, runSteps 2 s = .next t ∧ t.phase = .idle ∧ t.log = s.log ++ [⟨.framingError, none, none⟩] ∧
      t.rx = ⟨(packetFrame width p).tail ++ rest, s.rx.term⟩) ∧
    (0 < i → i ≤ width.bytes →
      fromLe (((flipBit (packetFrame width p) i k).drop 1).take width.bytes) ≠ BitVec.ofNat 16 p.payload.length)) ∧
  (∀ draw : Nat → Nat,
    (∃ rx', decodeFrame draw .w1 ⟨flipBit (packetFrame .w1 ⟨0x40#8, 0x0F#8, 0x02#8, [1, 2, 3]⟩) 1 0, .opened⟩ =
      .responded ⟨.checksumError, none, none⟩ rx') ∧
    (∃ rx', decodeFrame draw .w1 ⟨flipBit (packetFrame .w1 ⟨0x40#8, 0x0F#8, 0x02#8, [1, 2, 3]⟩) 1 2, .opened⟩ = .waits rx') ∧
    (∃ rx', decodeFrame draw .w1 ⟨flipBit (packetFrame .w1 ⟨0x40#8, 0x0F#8, 0x02#8, [1, 2, 3]⟩) 1 2, .closed⟩ =
      .responded ⟨.endOfStream, none, none⟩ rx') ∧
    (∃ rx', decodeFrame draw .w1 ⟨flipBit (packetFrame .w1 ⟨0x40#8, 0x0F#8, 0x02#8, [1, 2, 3]⟩) 1 2, .errored⟩ =
      .responded ⟨.ioError, none, none⟩ rx') ∧
    decodeFrame draw .w1 ⟨flipBit (packetFrame .w1 ⟨0x20#8, 0x06#8, 0x01#8, [0xD8#8]⟩) 1 0, .opened⟩ =
      .responded ⟨.ok, some ⟨0x20#8, 0x06#8, 0x01#8, []⟩, none⟩ ⟨[0x01#8], .opened⟩)

/-- Back-to-back frames: `k` whole frames of one width give `k` Packets to the `k` DECODEs that wait at the port. -/
def Obligations.BackToBackFrames : Prop :=
  ∀ (width : Width) (ps : List Packet) (rest : List Byte) (s : State), (∀ p ∈ ps, packetWF p width = true) →
    s.phase = .idle → s.schedule = [] → s.pbuf.wf = true → s.port = List.replicate ps.length (decodeCommand width) →
    s.rx.bytes = (ps.map (packetFrame width)).flatten ++ rest →
    ∃ t, runSteps ((ps.map (packetFrame width)).flatten.length + ps.length) s = .next t ∧ t.phase = .idle ∧
      t.log = s.log ++ ps.map (fun p => ⟨.ok, some p, none⟩) ∧ t.rx = ⟨rest, s.rx.term⟩ ∧ t.port = []

/-- Spec 42 R140: on an exhausted stream every DECODE ends at once, having consumed nothing, until the host reopens. -/
def Obligations.ExhaustedStream : Prop :=
  ∀ (width : Width) (k : Nat) (s : State), s.phase = .idle → s.schedule = [] →
    s.port = List.replicate k (decodeCommand width) → s.rx.bytes = [] →
    (s.rx.term = .closed → ∃ t, runSteps (2 * k) s = .next t ∧ t.phase = .idle ∧ t.rx = s.rx ∧
      t.log = s.log ++ List.replicate k ⟨.endOfStream, none, none⟩) ∧
    (s.rx.term = .errored → ∃ t, runSteps (2 * k) s = .next t ∧ t.phase = .idle ∧ t.rx = s.rx ∧
      t.log = s.log ++ List.replicate k ⟨.ioError, none, none⟩) ∧
    (∃ t, runMove .reopen s = .next t ∧ t.rx = ⟨[], .opened⟩)

/-- Repeating DECODE drops one byte that is not SOF per attempt, and then decodes the frame (the host's policy of spec 70 R206). -/
def Obligations.RepeatedDecodeFindsTheFrame : Prop :=
  ∀ (width : Width) (p : Packet) (junk rest : List Byte) (s : State), packetWF p width = true → (∀ b ∈ junk, b ≠ 0xFE#8) →
    s.phase = .idle → s.schedule = [] → s.pbuf.wf = true →
    s.port = List.replicate (junk.length + 1) (decodeCommand width) →
    s.rx.bytes = junk ++ packetFrame width p ++ rest →
    ∃ t, runSteps (2 * junk.length + 1 + (packetFrame width p).length) s = .next t ∧ t.phase = .idle ∧
      t.log = s.log ++ List.replicate junk.length ⟨.framingError, none, none⟩ ++ [⟨.ok, some p, none⟩] ∧
      t.rx = ⟨rest, s.rx.term⟩ ∧ t.port = []

/-! Exact reader (spec 43). -/

/-- Spec 43 R151: `readSome` returns between 1 and `m` available bytes, any such count being possible; on an empty stream its
answer is the stream's condition. -/
def Obligations.ReadSomeOutcomes : Prop :=
  ∀ (m : Nat) (rx : RxStream), 1 ≤ m →
    (rx.bytes ≠ [] →
      (∀ draw, ∃ k, 1 ≤ k ∧ k ≤ min m rx.bytes.length ∧
        readSome draw m rx = .bytes (rx.bytes.take k) ⟨rx.bytes.drop k, rx.term⟩) ∧
      (∀ k, 1 ≤ k → k ≤ min m rx.bytes.length →
        readSome k m rx = .bytes (rx.bytes.take k) ⟨rx.bytes.drop k, rx.term⟩)) ∧
    (rx.bytes = [] → ∀ draw,
      (rx.term = .closed → readSome draw m rx = .bytes [] rx) ∧
      (rx.term = .errored → readSome draw m rx = .error rx) ∧
      (rx.term = .opened → readSome draw m rx = .blocks rx))

/-- Spec 43 R152 and R154: what ReadExact comes to depends on the next `n` bytes and, where fewer are there, on the terminal
condition, never on the chunk sizes; `ReadExact(0)` leaves the stream alone; and no outcome of DECODE depends on them. -/
def Obligations.ChunkingIsInvisible : Prop :=
  (∀ (draw : Nat → Nat) (n : Nat) (rx : RxStream),
    (n ≤ rx.bytes.length → readExact draw n rx = .done (rx.bytes.take n) ⟨rx.bytes.drop n, rx.term⟩) ∧
    (rx.bytes.length < n → rx.term = .closed → readExact draw n rx = .failed .endOfStream ⟨[], .closed⟩) ∧
    (rx.bytes.length < n → rx.term = .errored → readExact draw n rx = .failed .ioError ⟨[], .errored⟩) ∧
    (rx.bytes.length < n → rx.term = .opened → readExact draw n rx = .waits ⟨[], .opened⟩)) ∧
  (∀ (draw : Nat → Nat) (rx : RxStream), readExact draw 0 rx = .done [] rx) ∧
  (∀ (draw draw' : Nat → Nat) (width : Width) (rx : RxStream), decodeFrame draw width rx = decodeFrame draw' width rx)

/-! Control commands and the command port (spec 44). -/

/-- ABORT ends a DECODE in progress, in whatever phase it is, and changes nothing else; bits 7:2 are ignored. -/
def Obligations.AbortEndsDecode : Prop :=
  ∀ (ignored : BitVec 6) (s : State), s.phase ≠ .idle →
    exec (.abort ignored) s = .next { s with phase := .idle, log := s.log ++ [⟨.cancelled, none, none⟩] }

/-- Spec 44 R161: an ABORT to an idle block has no effect, after an ENCODE in particular. -/
def Obligations.AbortWhileIdle : Prop :=
  ∀ (ignored : BitVec 6) (s : State), s.phase = .idle →
    exec (.abort ignored) s = .next s ∧
    ∀ (width : Width) (p : Packet) (t : State), exec (encodeInstr width p) s = .next t → exec (.abort ignored) t = .next t

/-- An ABORT may land after any number of byte steps of a DECODE: before the last one it gives CANCELLED and that many bytes are
consumed; after the last one it finds the block idle (spec 44 R160, 93 U1, 95 L2-C9). -/
def Obligations.AbortAtAnyPoint : Prop :=
  ∀ (width : Width) (p : Packet) (c : Command) (k : Nat) (rest : List Byte) (s : State), packetWF p width = true →
    Command.isAbort c = true → s.phase = .idle → s.port = [] → s.pbuf.wf = true →
    s.schedule = .issue (decodeCommand width) :: (List.replicate k Move.block ++ [Move.issue c]) →
    s.rx.bytes = packetFrame width p ++ rest →
    (k < (packetFrame width p).length → ∃ t, runSteps (k + 2) s = .next t ∧ t.phase = .idle ∧
      t.log = s.log ++ [⟨.cancelled, none, none⟩] ∧ t.rx = ⟨(packetFrame width p).drop k ++ rest, s.rx.term⟩) ∧
    (k = (packetFrame width p).length → ∃ t, runSteps (k + 2) s = .next t ∧ t.phase = .idle ∧
      t.log = s.log ++ [⟨.ok, some p, none⟩] ∧ t.rx = ⟨rest, s.rx.term⟩)

/-- Spec 44 R162: a word with OP = 00. -/
def Obligations.ReservedOpAnswersIllegal : Prop :=
  ∀ s : State, s.phase = .idle →
    (∀ ignored : BitVec 6, exec (.illegalReservedOp ignored) s =
      .next { s with log := s.log ++ [⟨.illegalCommand, none, none⟩] }) ∧
    (∀ (word : Byte) (p : Packet), word.toNat % 4 = 0 → s.port = [] →
      issue ⟨word, p⟩ s = .next { s with log := s.log ++ [⟨.illegalCommand, none, none⟩] })

/-- Spec 44 R163: a word with OP = 01 or 10 and RSVD nonzero, whatever its Packet is. -/
def Obligations.ReservedBitsAnswerIllegal : Prop :=
  ∀ s : State, s.phase = .idle →
    (∀ (op : CodecOp) (wsel : Bool) (rsvd : BitVec 5), exec (.illegalReservedRsvd op wsel rsvd) s =
      .next { s with log := s.log ++ [⟨.illegalCommand, none, none⟩] }) ∧
    (∀ (word : Byte) (p : Packet), (word.toNat % 4 = 1 ∨ word.toNat % 4 = 2) → word.toNat / 8 ≠ 0 → s.port = [] →
      issue ⟨word, p⟩ s = .next { s with log := s.log ++ [⟨.illegalCommand, none, none⟩] })

/-- A busy block does not take a command other than ABORT, which waits at the port, unanswered; an idle block takes it; ABORT
is taken in every state (spec 44 R164). That what waits is a queue to whose end a command is added (as `encode i` where `exec`
is given the instruction), and that the oldest is taken first, is the model's form of the port (log 6). -/
def Obligations.PortReadiness : Prop :=
  (∀ (c : Command) (s : State), Command.isAbort c = false → s.phase ≠ .idle →
    issue c s = .next { s with port := s.port ++ [c] }) ∧
  (∀ (i : Instr) (s : State), (∀ x, i ≠ .abort x) → s.phase ≠ .idle →
    exec i s = .next { s with port := s.port ++ [encode i] }) ∧
  (∀ (c : Command) (s : State), s.phase = .idle → s.port = [] → issue c s = exec (decode c) s) ∧
  (∀ (c : Command) (rest : List Command) (s : State), s.phase = .idle → s.port = c :: rest →
    blockStep s = exec (decode c) { s with port := rest }) ∧
  (∀ (c : Command) (s : State), c.word.toNat % 4 = 3 → ∃ x, issue c s = exec (.abort x) s)

/-- No waiting command is lost or reordered (spec 70 R209): a step leaves the queue alone, adds at its end the command that the
host issues in that step, or takes its oldest command, which the port accepts and the step runs. A command that the host issues is
added at the end of the queue or run in that step, and a RESET step leaves the queue alone. The queue, the schedule's place in the
step, and that RESET leaves the queue alone are the model's choices (log 6, log 4). -/
def Obligations.WaitingCommandsKeepOrder : Prop :=
  ∀ s t : State, step s = .next t →
    (t.port = s.port ∨
      (∃ c, s.schedule.head? = some (.issue c) ∧ t.port = s.port ++ [c]) ∨
      (∃ c, s.port = c :: t.port ∧ s.accepts c = true ∧
        exec (decode c) { s with port := t.port, schedule := s.schedule.tail } = .next t)) ∧
    (∀ c, s.schedule.head? = some (.issue c) →
      t.port = s.port ++ [c] ∨
      (t.port = s.port ∧ exec (decode c) { s with schedule := s.schedule.tail } = .next t)) ∧
    (s.schedule.head? = some .reset → t.port = s.port)

/-! The whole machine (spec 60, 70, 10, 20). -/

/-- The step runs the decoded instruction: of a command the host issues and the port accepts, on the state with the move taken
off the schedule; of the oldest waiting command, on the state with it taken off the port. Otherwise the step is the move's. That
a step is the head of a schedule, and the block's own step once the schedule is used up, is the model's choice (log 4); that the
waiting commands are a queue whose oldest is taken is its form of the port (log 6). -/
def Obligations.StepRunsDecodedCommand : Prop :=
  (∀ (c : Command) (ms : List Move) (s : State), s.schedule = .issue c :: ms →
    (Command.isAbort c = true ∨ (s.phase = .idle ∧ s.port = [])) →
    step s = exec (decode c) { s with schedule := ms }) ∧
  (∀ (c : Command) (rest : List Command) (s : State), s.schedule = [] → s.port = c :: rest → s.accepts c = true →
    step s = exec (decode c) { s with port := rest }) ∧
  (∀ (m : Move) (ms : List Move) (s : State), s.schedule = m :: ms → step s = runMove m { s with schedule := ms }) ∧
  (∀ s : State, s.schedule = [] → step s = blockStep s)

/-- What an instruction leaves unchanged, by shape: ENCODE and the reserved words write the log only; DECODE writes `phase` and
`w` only; ABORT writes `phase` and the log only; a busy block writes the port only. No instruction stores to the payload
buffer or consumes a byte. -/
def Obligations.InstructionFrames : Prop :=
  ∀ (i : Instr) (s t : State), exec i s = .next t →
    (∀ a, Memory.read t.pbuf a = Memory.read s.pbuf a) ∧ t.rx = s.rx ∧
    match i with
    | .encodeW1 _ | .encodeW2 _ | .illegalReservedOp _ | .illegalReservedRsvd _ _ _ =>
      if s.phase = .idle then t = { s with log := t.log } else t = { s with port := t.port }
    | .decodeW1 | .decodeW2 =>
      if s.phase = .idle then t = { s with phase := t.phase, w := t.w } else t = { s with port := t.port }
    | .abort _ => t = { s with phase := t.phase, log := t.log }

/-- The block changes the receive stream only by removing its first byte, at most one in a step. -/
def Obligations.BlockConsumesFromTheFront : Prop :=
  ∀ s t : State, blockStep s = .next t →
    t.rx = s.rx ∨ ∃ b, s.rx.bytes = b :: t.rx.bytes ∧ t.rx.term = s.rx.term ∧ s.phase ≠ .idle ∧ t.port = s.port

/-- The response log is only appended to, by at most one response in a step, and the block is idle after a response. -/
def Obligations.OneResponsePerStep : Prop :=
  ∀ s t : State, step s = .next t → t.log = s.log ∨ ∃ r, t.log = s.log ++ [r] ∧ t.phase = .idle

/-- Only these events give these codes (spec 60 R171 to R177). -/
def Obligations.CodesHaveTheirCauses : Prop :=
  ∀ (s t : State) (r : Response), step s = .next t → t.log = s.log ++ [r] →
    match r.code with
    | .ok => (s.phase = .dFcs ∧ s.rx.bytes = s.acc :: t.rx.bytes) ∨ (s.phase = .idle ∧ t.rx = s.rx)
    | .framingError => s.phase = .dSof ∧ ∃ b, s.rx.bytes = b :: t.rx.bytes ∧ b ≠ 0xFE#8
    | .checksumError => s.phase = .dFcs ∧ ∃ b, s.rx.bytes = b :: t.rx.bytes ∧ b ≠ s.acc
    | .endOfStream => s.phase ≠ .idle ∧ s.rx = ⟨[], .closed⟩ ∧ t.rx = s.rx
    | .ioError => s.phase ≠ .idle ∧ s.rx = ⟨[], .errored⟩ ∧ t.rx = s.rx
    | .frameTooLarge => s.phase = .idle ∧ t.rx = s.rx ∧ ∃ c p, (s.schedule.head? = some (.issue c) ∨ s.port.head? = some c) ∧
        ((decode c = .encodeW1 p ∧ p.payload.length > 253) ∨ (decode c = .encodeW2 p ∧ p.payload.length > 65533))
    | .cancelled => s.phase ≠ .idle ∧ t.rx = s.rx ∧ ∃ c, (s.schedule.head? = some (.issue c) ∨ s.port.head? = some c) ∧
        Command.isAbort c = true
    | .illegalCommand => s.phase = .idle ∧ t.rx = s.rx ∧ ∃ c, (s.schedule.head? = some (.issue c) ∨ s.port.head? = some c) ∧
        (c.word.toNat % 4 = 0 ∨ ((c.word.toNat % 4 = 1 ∨ c.word.toNat % 4 = 2) ∧ c.word.toNat / 8 ≠ 0))

/-- Spec 70 R200, the RESET input at any time: the block is idle, nothing is answered, the stream, the log and the port are as
before, and a command is accepted at once. That the port is as before is the model's choice (log 6). What the other registers
hold after it is open (log 3), so nothing is said of them. -/
def Obligations.ResetInput : Prop :=
  ∀ (s : State) (ms : List Move), s.schedule = .reset :: ms →
    ∃ t, step s = .next t ∧ t.phase = .idle ∧ t.rx = s.rx ∧ t.log = s.log ∧ t.port = s.port ∧ t.schedule = ms ∧
      (∀ c, s.port = [] → issue c t = exec (decode c) t) ∧
      (∀ c rest, s.port = c :: rest → blockStep t = exec (decode c) { t with port := rest })

/-- The moves of the host and the transport on the stream (spec 60 R181, 92 D26, D27), the moves with no effect on the block
(log 15), and another reader's taking of a byte (spec 20 R54). That a move whose condition fails is refused by a name,
`streamNotOpen` or `reopenWhileBusy`, is the model's choice (log 9), and so is the move `otherRead` (log 14). -/
def Obligations.TransportMoves : Prop :=
  ∀ s : State,
    (s.rx.term = .opened →
      (∀ bs, runMove (.push bs) s = .next { s with rx := ⟨s.rx.bytes ++ bs, .opened⟩ }) ∧
      runMove .close s = .next { s with rx := ⟨s.rx.bytes, .closed⟩ } ∧
      runMove .fail s = .next { s with rx := ⟨s.rx.bytes, .errored⟩ }) ∧
    (s.rx.term ≠ .opened →
      (∀ bs, runMove (.push bs) s = .refused .streamNotOpen) ∧ runMove .close s = .refused .streamNotOpen ∧
      runMove .fail s = .refused .streamNotOpen) ∧
    (s.phase = .idle → runMove .reopen s = .next { s with rx := ⟨[], .opened⟩ }) ∧
    (s.phase ≠ .idle → runMove .reopen s = .refused .reopenWhileBusy) ∧
    (∀ f, runMove (.txWrite f) s = .next s) ∧ runMove .readLog s = .next s ∧
    runMove .otherRead s = .next { s with rx := ⟨s.rx.bytes.tail, s.rx.term⟩ }

/-- The invariant holds after reset. -/
def Obligations.ResetMeetsInv : Prop := State.reset.Inv

/-- Every step keeps the invariant: the payload buffer stays canonical and within 0 to 65534, the decoder's registers agree with
its phase, no ABORT waits at the port, and every response of the log has the form of spec 10 R24. -/
def Obligations.StepKeepsInv : Prop :=
  ∀ s t : State, s.Inv → step s = .next t → t.Inv

/-- The machine never stops by itself: under the invariant a step answers a next state where the next move of the schedule may be
made, and is refused otherwise, RX.REOPEN as `reopenWhileBusy` and a move of the transport as `streamNotOpen`; so it never faults.
A block that holds, and an idle block at whose port nothing waits, keeps its state. The refusals by name are the model's choice
(log 9), and so is that a block with no enabled step answers its own state as the next (log 10). -/
def Obligations.StepNeverStopsByItself : Prop :=
  ∀ s : State, s.Inv →
    (s.nextMoveEnabled = true → ∃ t, step s = .next t) ∧
    (∀ m ms, s.schedule = m :: ms → Move.enabled m s = false →
      (m = .reopen → step s = .refused .reopenWhileBusy) ∧ (m ≠ .reopen → step s = .refused .streamNotOpen)) ∧
    ((s.phase = .idle ∧ s.port = []) ∨ (s.phase ≠ .idle ∧ s.portBlocked = true ∧ s.rx = ⟨[], .opened⟩) →
      blockStep s = .next s ∧ (s.schedule = [] → step s = .next s))

/-- The transient registers of an idle block are dead (spec 10 R25, R34): whatever they hold, every run looks the same from
outside, for any number of steps and every schedule of moves. -/
def Obligations.IdleRegistersAreDead : Prop :=
  ∀ (n : Nat) (s t : State), s.phase = .idle → s.pbuf.wf = true → t.pbuf.wf = true → s.sameOutside t →
    sameObserved (runSteps n s) (runSteps n t)

/-- Instances share no state (spec 60 R185): a step of one leaves every other as it is, and steps of two instances that read
different streams commute. For a step that reopens a stream another instance is decoding on, the first clause rests on the
model's choice (log 19). -/
def Obligations.InstancesAreIndependent : Prop :=
  ∀ (sys a : System) (k : Nat), sys.stepInst k = .next a →
    (∀ j, j ≠ k → a.insts[j]? = sys.insts[j]?) ∧ a.link = sys.link ∧
    (∀ (j x y : Nat) (b : System), j ≠ k → sys.link[k]? = some x → sys.link[j]? = some y → x ≠ y → a.stepInst j = .next b →
      ∃ c, sys.stepInst j = .next c ∧ c.stepInst k = .next b)

/-- Two readers of one stream (spec 20 R54): a block step of one takes at most the first byte, no other stream changes, and the
other reader, whose own state is untouched, goes on from what is left. -/
def Obligations.SharedByteGoesToOneReader : Prop :=
  ∀ (sys a : System) (k j x : Nat) (s u : State) (rx : RxStream), j ≠ k → sys.insts[k]? = some s → sys.insts[j]? = some u →
    sys.link[k]? = some x → sys.link[j]? = some x → sys.streams[x]? = some rx → s.schedule = [] →
    sys.stepInst k = .next a →
    ∃ rx', a.streams[x]? = some rx' ∧ (rx' = rx ∨ ∃ b, rx.bytes = b :: rx'.bytes ∧ rx'.term = rx.term) ∧
      (∀ y, y ≠ x → a.streams[y]? = sys.streams[y]?) ∧ a.insts[j]? = some u ∧
      a.stepInst j = (match step { u with rx := rx' } with
        | .next t => .next (a.store j x t)
        | .fault r => .fault r
        | .refused r => .refused r)
end

