-- ==== Sys2Proof/Laws/State.lean ====
section
/-! SUPPORT. One lemma per field and per named update of State, each true by rfl, so that no later proof unfolds a record update. -/

namespace Sys2Proof.Machine

open Sys2Proof

@[simp] theorem State.takeByte_phase (s : State) : (State.takeByte s).phase = s.phase := rfl
@[simp] theorem State.takeByte_w (s : State) : (State.takeByte s).w = s.w := rfl
@[simp] theorem State.takeByte_L (s : State) : (State.takeByte s).L = s.L := rfl
@[simp] theorem State.takeByte_acc (s : State) : (State.takeByte s).acc = s.acc := rfl
@[simp] theorem State.takeByte_hdr (s : State) : (State.takeByte s).hdr = s.hdr := rfl
@[simp] theorem State.takeByte_cmd (s : State) : (State.takeByte s).cmd = s.cmd := rfl
@[simp] theorem State.takeByte_idx (s : State) : (State.takeByte s).idx = s.idx := rfl
@[simp] theorem State.takeByte_pbuf (s : State) : (State.takeByte s).pbuf = s.pbuf := rfl
@[simp] theorem State.takeByte_rx (s : State) : (State.takeByte s).rx = { s.rx with bytes := s.rx.bytes.tail } := rfl
@[simp] theorem State.takeByte_log (s : State) : (State.takeByte s).log = s.log := rfl
@[simp] theorem State.takeByte_port (s : State) : (State.takeByte s).port = s.port := rfl
@[simp] theorem State.takeByte_schedule (s : State) : (State.takeByte s).schedule = s.schedule := rfl
@[simp] theorem State.takeByte_draws (s : State) : (State.takeByte s).draws = s.draws := rfl

@[simp] theorem State.respond_phase (r : Response) (s : State) : (State.respond r s).phase = .idle := rfl
@[simp] theorem State.respond_w (r : Response) (s : State) : (State.respond r s).w = s.w := rfl
@[simp] theorem State.respond_L (r : Response) (s : State) : (State.respond r s).L = s.L := rfl
@[simp] theorem State.respond_acc (r : Response) (s : State) : (State.respond r s).acc = s.acc := rfl
@[simp] theorem State.respond_hdr (r : Response) (s : State) : (State.respond r s).hdr = s.hdr := rfl
@[simp] theorem State.respond_cmd (r : Response) (s : State) : (State.respond r s).cmd = s.cmd := rfl
@[simp] theorem State.respond_idx (r : Response) (s : State) : (State.respond r s).idx = s.idx := rfl
@[simp] theorem State.respond_pbuf (r : Response) (s : State) : (State.respond r s).pbuf = s.pbuf := rfl
@[simp] theorem State.respond_rx (r : Response) (s : State) : (State.respond r s).rx = s.rx := rfl
@[simp] theorem State.respond_log (r : Response) (s : State) : (State.respond r s).log = s.log ++ [r] := rfl
@[simp] theorem State.respond_port (r : Response) (s : State) : (State.respond r s).port = s.port := rfl
@[simp] theorem State.respond_schedule (r : Response) (s : State) : (State.respond r s).schedule = s.schedule := rfl
@[simp] theorem State.respond_draws (r : Response) (s : State) : (State.respond r s).draws = s.draws := rfl

@[simp] theorem State.raise_phase (code : ResultCode) (s : State) : (State.raise code s).phase = .idle := rfl
@[simp] theorem State.raise_w (code : ResultCode) (s : State) : (State.raise code s).w = s.w := rfl
@[simp] theorem State.raise_L (code : ResultCode) (s : State) : (State.raise code s).L = s.L := rfl
@[simp] theorem State.raise_acc (code : ResultCode) (s : State) : (State.raise code s).acc = s.acc := rfl
@[simp] theorem State.raise_hdr (code : ResultCode) (s : State) : (State.raise code s).hdr = s.hdr := rfl
@[simp] theorem State.raise_cmd (code : ResultCode) (s : State) : (State.raise code s).cmd = s.cmd := rfl
@[simp] theorem State.raise_idx (code : ResultCode) (s : State) : (State.raise code s).idx = s.idx := rfl
@[simp] theorem State.raise_pbuf (code : ResultCode) (s : State) : (State.raise code s).pbuf = s.pbuf := rfl
@[simp] theorem State.raise_rx (code : ResultCode) (s : State) : (State.raise code s).rx = s.rx := rfl
@[simp] theorem State.raise_log (code : ResultCode) (s : State) : (State.raise code s).log = s.log ++ [Response.error code] := rfl
@[simp] theorem State.raise_port (code : ResultCode) (s : State) : (State.raise code s).port = s.port := rfl
@[simp] theorem State.raise_schedule (code : ResultCode) (s : State) : (State.raise code s).schedule = s.schedule := rfl
@[simp] theorem State.raise_draws (code : ResultCode) (s : State) : (State.raise code s).draws = s.draws := rfl

@[simp] theorem State.holdAtPort_phase (c : Command) (s : State) : (State.holdAtPort c s).phase = s.phase := rfl
@[simp] theorem State.holdAtPort_w (c : Command) (s : State) : (State.holdAtPort c s).w = s.w := rfl
@[simp] theorem State.holdAtPort_L (c : Command) (s : State) : (State.holdAtPort c s).L = s.L := rfl
@[simp] theorem State.holdAtPort_acc (c : Command) (s : State) : (State.holdAtPort c s).acc = s.acc := rfl
@[simp] theorem State.holdAtPort_hdr (c : Command) (s : State) : (State.holdAtPort c s).hdr = s.hdr := rfl
@[simp] theorem State.holdAtPort_cmd (c : Command) (s : State) : (State.holdAtPort c s).cmd = s.cmd := rfl
@[simp] theorem State.holdAtPort_idx (c : Command) (s : State) : (State.holdAtPort c s).idx = s.idx := rfl
@[simp] theorem State.holdAtPort_pbuf (c : Command) (s : State) : (State.holdAtPort c s).pbuf = s.pbuf := rfl
@[simp] theorem State.holdAtPort_rx (c : Command) (s : State) : (State.holdAtPort c s).rx = s.rx := rfl
@[simp] theorem State.holdAtPort_log (c : Command) (s : State) : (State.holdAtPort c s).log = s.log := rfl
@[simp] theorem State.holdAtPort_port (c : Command) (s : State) : (State.holdAtPort c s).port = s.port ++ [c] := rfl
@[simp] theorem State.holdAtPort_schedule (c : Command) (s : State) : (State.holdAtPort c s).schedule = s.schedule := rfl
@[simp] theorem State.holdAtPort_draws (c : Command) (s : State) : (State.holdAtPort c s).draws = s.draws := rfl

@[simp] theorem State.absorb_phase (b : Byte) (ph : Phase) (s : State) : (State.absorb b ph s).phase = ph := rfl
@[simp] theorem State.absorb_w (b : Byte) (ph : Phase) (s : State) : (State.absorb b ph s).w = s.w := rfl
@[simp] theorem State.absorb_L (b : Byte) (ph : Phase) (s : State) : (State.absorb b ph s).L = s.L := rfl
@[simp] theorem State.absorb_acc (b : Byte) (ph : Phase) (s : State) : (State.absorb b ph s).acc = s.acc ^^^ b := rfl
@[simp] theorem State.absorb_hdr (b : Byte) (ph : Phase) (s : State) : (State.absorb b ph s).hdr = s.hdr := rfl
@[simp] theorem State.absorb_cmd (b : Byte) (ph : Phase) (s : State) : (State.absorb b ph s).cmd = s.cmd := rfl
@[simp] theorem State.absorb_idx (b : Byte) (ph : Phase) (s : State) : (State.absorb b ph s).idx = s.idx := rfl
@[simp] theorem State.absorb_pbuf (b : Byte) (ph : Phase) (s : State) : (State.absorb b ph s).pbuf = s.pbuf := rfl
@[simp] theorem State.absorb_rx (b : Byte) (ph : Phase) (s : State) : (State.absorb b ph s).rx = s.rx := rfl
@[simp] theorem State.absorb_log (b : Byte) (ph : Phase) (s : State) : (State.absorb b ph s).log = s.log := rfl
@[simp] theorem State.absorb_port (b : Byte) (ph : Phase) (s : State) : (State.absorb b ph s).port = s.port := rfl
@[simp] theorem State.absorb_schedule (b : Byte) (ph : Phase) (s : State) : (State.absorb b ph s).schedule = s.schedule := rfl
@[simp] theorem State.absorb_draws (b : Byte) (ph : Phase) (s : State) : (State.absorb b ph s).draws = s.draws := rfl

@[simp] theorem State.startDecode_phase (width : Width) (s : State) : (State.startDecode width s).phase = .dSof := rfl
@[simp] theorem State.startDecode_w (width : Width) (s : State) : (State.startDecode width s).w = width := rfl
@[simp] theorem State.startDecode_L (width : Width) (s : State) : (State.startDecode width s).L = s.L := rfl
@[simp] theorem State.startDecode_acc (width : Width) (s : State) : (State.startDecode width s).acc = s.acc := rfl
@[simp] theorem State.startDecode_hdr (width : Width) (s : State) : (State.startDecode width s).hdr = s.hdr := rfl
@[simp] theorem State.startDecode_cmd (width : Width) (s : State) : (State.startDecode width s).cmd = s.cmd := rfl
@[simp] theorem State.startDecode_idx (width : Width) (s : State) : (State.startDecode width s).idx = s.idx := rfl
@[simp] theorem State.startDecode_pbuf (width : Width) (s : State) : (State.startDecode width s).pbuf = s.pbuf := rfl
@[simp] theorem State.startDecode_rx (width : Width) (s : State) : (State.startDecode width s).rx = s.rx := rfl
@[simp] theorem State.startDecode_log (width : Width) (s : State) : (State.startDecode width s).log = s.log := rfl
@[simp] theorem State.startDecode_port (width : Width) (s : State) : (State.startDecode width s).port = s.port := rfl
@[simp] theorem State.startDecode_schedule (width : Width) (s : State) : (State.startDecode width s).schedule = s.schedule := rfl
@[simp] theorem State.startDecode_draws (width : Width) (s : State) : (State.startDecode width s).draws = s.draws := rfl

@[simp] theorem State.applyReset_phase (s : State) : (State.applyReset s).phase = .idle := rfl
@[simp] theorem State.applyReset_w (s : State) : (State.applyReset s).w = if Config.resetWsel s.draws then .w2 else .w1 := rfl
@[simp] theorem State.applyReset_L (s : State) : (State.applyReset s).L = Config.resetL s.draws := rfl
@[simp] theorem State.applyReset_acc (s : State) : (State.applyReset s).acc = Config.resetAcc s.draws := rfl
@[simp] theorem State.applyReset_hdr (s : State) : (State.applyReset s).hdr = Config.resetHdr s.draws := rfl
@[simp] theorem State.applyReset_cmd (s : State) : (State.applyReset s).cmd = Config.resetCmd s.draws := rfl
@[simp] theorem State.applyReset_idx (s : State) : (State.applyReset s).idx = Config.resetIdx s.draws := rfl
@[simp] theorem State.applyReset_pbuf (s : State) : (State.applyReset s).pbuf =
    Memory.fill 0 ((Config.resetPbuf s.draws).take Config.pbufBytes) := rfl
@[simp] theorem State.applyReset_rx (s : State) : (State.applyReset s).rx = s.rx := rfl
@[simp] theorem State.applyReset_log (s : State) : (State.applyReset s).log = s.log := rfl
@[simp] theorem State.applyReset_port (s : State) : (State.applyReset s).port = s.port := rfl
@[simp] theorem State.applyReset_schedule (s : State) : (State.applyReset s).schedule = s.schedule := rfl
@[simp] theorem State.applyReset_draws (s : State) : (State.applyReset s).draws = s.draws + 1 := rfl

end Sys2Proof.Machine
end

