-- ==== Sys2Proof/Laws/Memory.lean ====
section
/-! SUPPORT. Every memory operation keeps the canonical form, and what a slice of the payload buffer is. -/

namespace Sys2Proof.Machine

open Sys2Proof

theorem Memory.risesFrom_mono {m : Memory} {lo lo' : Nat} (h : lo' ≤ lo) (hm : Memory.risesFrom lo m = true) :
    Memory.risesFrom lo' m = true := by
  cases m with
  | nil => rfl
  | cons c rest =>
    obtain ⟨a, b⟩ := c
    simp only [Memory.risesFrom, Bool.and_eq_true, decide_eq_true_eq] at hm ⊢
    exact ⟨⟨by omega, hm.1.2⟩, hm.2⟩

theorem Memory.risesFrom_cons {rest : Memory} {lo a : Nat} (b : Byte) (h : lo ≤ a)
    (hr : Memory.risesFrom (a + 1) rest = true) : Memory.risesFrom lo (Memory.cons a b rest) = true := by
  unfold Memory.cons
  split
  · exact Memory.risesFrom_mono (by omega) hr
  · next hb => simp [Memory.risesFrom, h, hr, hb]

theorem Memory.risesFrom_write {m : Memory} {lo a : Nat} (b : Byte) (h : lo ≤ a)
    (hm : Memory.risesFrom lo m = true) : Memory.risesFrom lo (Memory.write m a b) = true := by
  induction m generalizing lo with
  | nil => exact Memory.risesFrom_cons b h rfl
  | cons c rest ih =>
    obtain ⟨k, d⟩ := c
    simp only [Memory.risesFrom, Bool.and_eq_true, decide_eq_true_eq] at hm
    simp only [Memory.write]
    split
    · refine Memory.risesFrom_cons b h ?_
      simp only [Memory.risesFrom, Bool.and_eq_true, decide_eq_true_eq]
      exact ⟨⟨by omega, hm.1.2⟩, hm.2⟩
    · split
      · next hk => exact Memory.risesFrom_cons b h (hk ▸ hm.2)
      · simp only [Memory.risesFrom, Bool.and_eq_true, decide_eq_true_eq]
        exact ⟨hm.1, ih (by omega) hm.2⟩

/-- A write keeps the canonical form. -/
theorem Memory.wf_write {m : Memory} (a : Nat) (b : Byte) (hm : m.wf = true) : (Memory.write m a b).wf = true :=
  Memory.risesFrom_write b (Nat.zero_le a) hm

theorem Memory.risesFrom_fill (bytes : List Byte) (lo a : Nat) (h : lo ≤ a) :
    Memory.risesFrom lo (Memory.fill a bytes) = true := by
  induction bytes generalizing lo a with
  | nil => rfl
  | cons b rest ih => exact Memory.risesFrom_cons b h (ih _ _ (Nat.le_refl _))

/-- A filled memory is canonical. -/
theorem Memory.wf_fill (bytes : List Byte) (a : Nat) : (Memory.fill a bytes).wf = true :=
  Memory.risesFrom_fill bytes 0 a (Nat.zero_le a)

/-- A filled memory lists no index above the bytes it was filled with. -/
theorem Memory.mem_fill {bytes : List Byte} {a : Nat} {c : Host.Cell} (h : c ∈ Memory.fill a bytes) :
    c.1 < a + bytes.length := by
  induction bytes generalizing a with
  | nil => cases h
  | cons b rest ih =>
    simp only [Memory.fill, Memory.cons] at h
    split at h
    · have := ih h; simp only [List.length_cons]; omega
    · rcases List.mem_cons.mp h with rfl | h
      · simp
      · have := ih h; simp only [List.length_cons]; omega

/-- Reset memory is canonical. -/
theorem Memory.wf_nil : Memory.wf [] = true := rfl

/-- A write lists no index but the written one and those that were listed. -/
theorem Memory.mem_write {m : Memory} {a : Nat} {b : Byte} {c : Host.Cell} (h : c ∈ Memory.write m a b) :
    c.1 = a ∨ c ∈ m := by
  have hcons : ∀ rest : Memory, c ∈ Memory.cons a b rest → c.1 = a ∨ c ∈ rest := by
    intro rest hc
    unfold Memory.cons at hc
    split at hc
    · exact .inr hc
    · rcases List.mem_cons.mp hc with rfl | hc
      · exact .inl rfl
      · exact .inr hc
  induction m with
  | nil => exact hcons [] h
  | cons d rest ih =>
    obtain ⟨k, e⟩ := d
    simp only [Memory.write] at h
    split at h
    · exact hcons _ h
    · split at h
      · rcases hcons _ h with h | h
        · exact .inl h
        · exact .inr (List.mem_cons_of_mem _ h)
      · rcases List.mem_cons.mp h with rfl | h
        · exact .inr List.mem_cons_self
        · rcases ih h with h | h
          · exact .inl h
          · exact .inr (List.mem_cons_of_mem _ h)

@[simp] theorem Memory.length_slice (m : Memory) (a n : Nat) : (Memory.slice m a n).length = n := by
  induction n generalizing a with
  | zero => rfl
  | succ n ih => simp [Memory.slice, ih]

/-- A slice holds the bytes read at its indexes, in order. -/
theorem Memory.getElem?_slice (m : Memory) (a n i : Nat) :
    (Memory.slice m a n)[i]? = if i < n then some (Memory.read m (a + i)) else none := by
  induction n generalizing a i with
  | zero => simp [Memory.slice]
  | succ n ih =>
    cases i with
    | zero => simp [Memory.slice]
    | succ i => simp [Memory.slice, ih, Nat.add_comm 1 i, Nat.add_assoc]

end Sys2Proof.Machine
end

