-- ==== Sys2Proof/Laws/PerInstr.lean ====
section
/-! SUPPORT. Per instruction: the command word of a well-formed instruction fits its row of spec/opcode_table.json, and the decoder reads the same row from it. -/

namespace Sys2Proof.Laws.TableRow

open Sys2Proof

/-- The encoded word matches the row's `match` under its `mask`; and the row of what the decoder reads is this row. -/
def Statement (i : Instr) : Prop :=
  i.wellFormed = true →
    i.word &&& i.rowMask = i.rowMatch ∧ (decode (encode i)).rowMask = i.rowMask ∧ (decode (encode i)).rowMatch = i.rowMatch

theorem encodeW1 (p : Packet) : Statement (.encodeW1 p) := by
  intro _
  simp [decode, decodeOp01, encode, Instr.word, Instr.rowMask, Instr.rowMatch, opField, rsvdField, wselField, packWord]

theorem encodeW2 (p : Packet) : Statement (.encodeW2 p) := by
  intro _
  simp [decode, decodeOp01, encode, Instr.word, Instr.rowMask, Instr.rowMatch, opField, rsvdField, wselField, packWord]

theorem decodeW1 : Statement .decodeW1 := fun _ => ⟨rfl, rfl, rfl⟩

theorem decodeW2 : Statement .decodeW2 := fun _ => ⟨rfl, rfl, rfl⟩

theorem abort (ignored : BitVec 6) : Statement (.abort ignored) := by
  intro _
  revert ignored
  decide

theorem illegalReservedOp (ignored : BitVec 6) : Statement (.illegalReservedOp ignored) := by
  intro _
  revert ignored
  decide

theorem illegalReservedRsvd (op : CodecOp) (wsel : Bool) (rsvd : BitVec 5) :
    Statement (.illegalReservedRsvd op wsel rsvd) := by
  unfold Statement
  revert rsvd
  cases op <;> cases wsel <;> decide

end Sys2Proof.Laws.TableRow
end

