-- ==== Sys2Proof/Laws/Steps.lean ====
section
/-! SUPPORT. For each shared operation of the machine, one lemma that says once everything it can do; proofs about instructions and steps cite these instead of unfolding. -/

namespace Sys2Proof.Machine

open Sys2Proof

/-! The command port. -/

theorem whenIdle_of_idle {s : State} (i : Instr) (accepted : State) (h : s.phase = .idle) :
    State.whenIdle i s accepted = .next accepted := by simp [State.whenIdle, h]

theorem whenIdle_of_busy {s : State} (i : Instr) (accepted : State) (h : s.phase ≠ .idle) :
    State.whenIdle i s accepted = .next (s.holdAtPort (encode i)) := by simp [State.whenIdle, h]

/-- `decode` answers ABORT exactly for the words the port takes in every state. -/
theorem decode_abort_iff (c : Command) : (∃ x, decode c = .abort x) ↔ Command.isAbort c = true := by
  have h4 : ∀ v : BitVec 2, v ≠ 0b00#2 → v ≠ 0b01#2 → v ≠ 0b10#2 → v = 0b11#2 := by decide
  constructor
  · rintro ⟨x, hx⟩
    unfold decode at hx
    split at hx
    · cases hx
    split at hx
    · unfold decodeOp01 at hx
      split at hx
      · split at hx <;> cases hx
      · cases hx
    split at hx
    · unfold decodeOp10 at hx
      split at hx
      · split at hx <;> cases hx
      · cases hx
    · simpa [Command.isAbort] using h4 _ ‹_› ‹_› ‹_›
  · intro h
    have h3 : opField c.word = 0b11#2 := by simpa [Command.isAbort] using h
    exact ⟨ignoredField c.word, by simp [decode, h3]⟩

/-- What ABORT does: nothing to an idle block, and CANCELLED to a busy one. -/
theorem execAbort_eq (x : BitVec 6) (s : State) :
    execAbort x s = .next (if s.phase = .idle then s else s.raise .cancelled) := by
  unfold execAbort; split <;> rfl

/-- Everything an instruction other than ABORT can do to an idle block: append one response, or start a DECODE. -/
theorem exec_of_idle {i : Instr} {s : State} (h : s.phase = .idle) :
    (∃ p, i = .encodeW1 p ∧ exec i s = .next (encodeAccepted .w1 p s)) ∨
    (∃ p, i = .encodeW2 p ∧ exec i s = .next (encodeAccepted .w2 p s)) ∨
    (i = .decodeW1 ∧ exec i s = .next (s.startDecode .w1)) ∨
    (i = .decodeW2 ∧ exec i s = .next (s.startDecode .w2)) ∨
    (∃ x, i = .abort x ∧ exec i s = .next s) ∨
    (((∃ x, i = .illegalReservedOp x) ∨ ∃ op wsel rsvd, i = .illegalReservedRsvd op wsel rsvd) ∧
      exec i s = .next (s.raise .illegalCommand)) := by
  cases i with
  | encodeW1 p => exact .inl ⟨p, rfl, whenIdle_of_idle _ _ h⟩
  | encodeW2 p => exact .inr (.inl ⟨p, rfl, whenIdle_of_idle _ _ h⟩)
  | decodeW1 => exact .inr (.inr (.inl ⟨rfl, whenIdle_of_idle _ _ h⟩))
  | decodeW2 => exact .inr (.inr (.inr (.inl ⟨rfl, whenIdle_of_idle _ _ h⟩)))
  | abort x => exact .inr (.inr (.inr (.inr (.inl ⟨x, rfl, by simp [exec, execAbort_eq, h]⟩))))
  | illegalReservedOp x =>
    exact .inr (.inr (.inr (.inr (.inr ⟨.inl ⟨x, rfl⟩, whenIdle_of_idle _ _ h⟩))))
  | illegalReservedRsvd op wsel rsvd =>
    exact .inr (.inr (.inr (.inr (.inr ⟨.inr ⟨op, wsel, rsvd, rfl⟩, whenIdle_of_idle _ _ h⟩))))

/-- Everything an instruction can do to a busy block: ABORT cancels, any other waits at the port. -/
theorem exec_of_busy {i : Instr} {s : State} (h : s.phase ≠ .idle) :
    (∃ x, i = .abort x ∧ exec i s = .next (s.raise .cancelled)) ∨
    ((∀ x, i ≠ .abort x) ∧ exec i s = .next (s.holdAtPort (encode i))) := by
  cases i with
  | abort x => exact .inl ⟨x, rfl, by simp [exec, execAbort_eq, h]⟩
  | encodeW1 p => exact .inr ⟨nofun, whenIdle_of_busy _ _ h⟩
  | encodeW2 p => exact .inr ⟨nofun, whenIdle_of_busy _ _ h⟩
  | decodeW1 => exact .inr ⟨nofun, whenIdle_of_busy _ _ h⟩
  | decodeW2 => exact .inr ⟨nofun, whenIdle_of_busy _ _ h⟩
  | illegalReservedOp x => exact .inr ⟨nofun, whenIdle_of_busy _ _ h⟩
  | illegalReservedRsvd op wsel rsvd => exact .inr ⟨nofun, whenIdle_of_busy _ _ h⟩

/-- An ENCODE that is accepted appends one response and changes nothing else of an idle block. -/
theorem encodeAccepted_eq {s : State} (width : Width) (p : Packet) (h : s.phase = .idle) :
    encodeAccepted width p s =
      { s with log := s.log ++ [if tooLarge width p then Response.error .frameTooLarge
                                else Response.okFrame (packetFrame width p)] } := by
  unfold encodeAccepted
  split <;> simp [State.raise, State.respond, h]

/-- Issuing a command: ABORT is executed at once, any other where the block is idle and nothing waits; else it waits. -/
theorem issue_cases (c : Command) (s : State) :
    ((Command.isAbort c = true ∨ (s.phase = .idle ∧ s.port = [])) ∧ issue c s = exec (decode c) s) ∨
    (Command.isAbort c = false ∧ issue c s = .next (s.holdAtPort c)) := by
  unfold issue
  split
  · next h => exact .inl ⟨.inl h, rfl⟩
  · next h =>
    split
    · next hi => exact .inl ⟨.inr hi, rfl⟩
    · exact .inr ⟨by simpa using h, rfl⟩

/-! The decoder. -/

/-- The payload step stores its byte and counts it, or finds no index of the buffer. -/
theorem stepPay_cases (b : Byte) (s : State) :
    (s.idx.toNat < Config.pbufBytes ∧
      stepPay b s = .next (stepPayStored b { s with pbuf := Memory.write s.pbuf s.idx.toNat b })) ∨
    (¬ s.idx.toNat < Config.pbufBytes ∧ stepPay b s = .fault .pbufIndex) := by
  by_cases h : s.idx.toNat < Config.pbufBytes
  · exact .inl ⟨h, by simp [stepPay, State.writePbuf, h]⟩
  · exact .inr ⟨h, by simp [stepPay, State.writePbuf, h]⟩

/-- The decoder's step: none when idle, the byte step on a byte, the terminal step on an empty stream. -/
theorem decoderStep_cases (s : State) :
    (s.phase = .idle ∧ decoderStep s = .next s) ∨
    (∃ b rest, s.phase ≠ .idle ∧ s.rx.bytes = b :: rest ∧ decoderStep s = byteStep b s.takeByte) ∨
    (s.phase ≠ .idle ∧ s.rx.bytes = [] ∧ decoderStep s = .next (terminalStep s)) := by
  unfold decoderStep
  split
  · exact .inl ⟨‹_›, rfl⟩
  · split
    · next b rest h => exact .inr (.inl ⟨b, rest, ‹_›, h, rfl⟩)
    · next h => exact .inr (.inr ⟨‹_›, h, rfl⟩)

/-- The block's step: the oldest waiting command where the port accepts it, else the decoder's step. -/
theorem blockStep_cases (s : State) :
    (∃ c rest, s.port = c :: rest ∧ s.accepts c = true ∧ blockStep s = exec (decode c) { s with port := rest }) ∨
    (s.portBlocked = true ∧ blockStep s = decoderStep s) := by
  unfold blockStep State.portBlocked
  cases s.port with
  | nil => exact .inr ⟨rfl, rfl⟩
  | cons c rest =>
    by_cases ha : s.accepts c = true
    · exact .inl ⟨c, rest, rfl, ha, if_pos ha⟩
    · exact .inr ⟨by simpa using ha, if_neg ha⟩

theorem blockStep_of_blocked {s : State} (h : s.portBlocked = true) : blockStep s = decoderStep s := by
  rcases blockStep_cases s with ⟨c, rest, hp, ha, -⟩ | ⟨-, hb⟩
  · simp [State.portBlocked, hp, ha] at h
  · exact hb

theorem blockStep_of_empty_port {s : State} (h : s.port = []) : blockStep s = decoderStep s := by
  simp [blockStep, h]

/-! The step. -/

theorem step_of_no_schedule {s : State} (h : s.schedule = []) : step s = blockStep s := by
  simp [step, nextMove, h]

theorem step_of_schedule {s : State} {m : Move} {ms : List Move} (h : s.schedule = m :: ms) :
    step s = runMove m { s with schedule := ms } := by
  simp [step, nextMove, h]

/-- Everything a step can do: the block's own step, a command that the host issues, a move on the stream, a RESET, or nothing
the block can see. -/
theorem step_cases (s : State) :
    (step s = blockStep s ∧ s.schedule = []) ∨
    (∃ m ms, s.schedule = m :: ms ∧ step s = runMove m { s with schedule := ms }) := by
  cases h : s.schedule with
  | nil => exact .inl ⟨step_of_no_schedule h, rfl⟩
  | cons m ms => exact .inr ⟨m, ms, rfl, step_of_schedule h⟩

/-- Everything a move other than the block's own step and the issue of a command can do. -/
theorem runMove_cases {m : Move} {s t : State} (h : runMove m s = .next t) :
    (m = .block ∧ blockStep s = .next t) ∨ (∃ c, m = .issue c ∧ issue c s = .next t) ∨
    (∃ bytes, m = .push bytes ∧ s.rx.term = .opened ∧ t = { s with rx := { s.rx with bytes := s.rx.bytes ++ bytes } }) ∨
    (m = .close ∧ s.rx.term = .opened ∧ t = { s with rx := { s.rx with term := .closed } }) ∨
    (m = .fail ∧ s.rx.term = .opened ∧ t = { s with rx := { s.rx with term := .errored } }) ∨
    (m = .reopen ∧ s.phase = .idle ∧ t = { s with rx := ⟨[], .opened⟩ }) ∨
    (m = .reset ∧ t = s.applyReset) ∨ (∃ f, m = .txWrite f ∧ t = s) ∨ (m = .readLog ∧ t = s) ∨
    (m = .otherRead ∧ t = s.takeByte) := by
  have guard : ∀ (c : Prop) [Decidable c] (u : State) (r : Refusal),
      (if c then Host.Outcome.next u else .refused r : Result) = .next t → c ∧ t = u := by
    intro c _ u r hg
    split at hg
    · cases hg; exact ⟨‹_›, rfl⟩
    · cases hg
  cases m with
  | block => exact .inl ⟨rfl, h⟩
  | issue c => exact .inr (.inl ⟨c, rfl, h⟩)
  | push bytes => exact .inr (.inr (.inl ⟨bytes, rfl, guard _ _ _ h⟩))
  | close => exact .inr (.inr (.inr (.inl ⟨rfl, guard _ _ _ h⟩)))
  | fail => exact .inr (.inr (.inr (.inr (.inl ⟨rfl, guard _ _ _ h⟩))))
  | reopen => exact .inr (.inr (.inr (.inr (.inr (.inl ⟨rfl, guard _ _ _ h⟩)))))
  | reset => cases h; exact .inr (.inr (.inr (.inr (.inr (.inr (.inl ⟨rfl, rfl⟩))))))
  | txWrite f => cases h; exact .inr (.inr (.inr (.inr (.inr (.inr (.inr (.inl ⟨f, rfl, rfl⟩)))))))
  | readLog => cases h; exact .inr (.inr (.inr (.inr (.inr (.inr (.inr (.inr (.inl ⟨rfl, rfl⟩))))))))
  | otherRead => cases h; exact .inr (.inr (.inr (.inr (.inr (.inr (.inr (.inr (.inr ⟨rfl, rfl⟩))))))))

/-! Runs. -/

theorem runSteps_zero (s : State) : runSteps 0 s = .next s := rfl

theorem runSteps_succ (n : Nat) (s : State) :
    runSteps (n + 1) s =
      match step s with
      | .next t => runSteps n t
      | .fault r => .fault r
      | .refused r => .refused r := by
  have hc : Sys2Proof.core.step s = step s := rfl
  cases h : step s <;> simp only [runSteps, Host.Core.run, hc, h] <;> rfl

theorem runSteps_succ_of_next {s t : State} (n : Nat) (h : step s = .next t) : runSteps (n + 1) s = runSteps n t := by
  rw [runSteps_succ, h]

/-- A run of `m + n` steps is a run of `m` and then one of `n`. -/
theorem runSteps_add {s t : State} (m n : Nat) (h : runSteps m s = .next t) : runSteps (m + n) s = runSteps n t := by
  induction m generalizing s with
  | zero => cases h; simp
  | succ m ih =>
    rw [runSteps_succ] at h
    rw [Nat.succ_add, runSteps_succ]
    cases hs : step s with
    | next u => rw [hs] at h; exact ih h
    | fault r => rw [hs] at h; cases h
    | refused r => rw [hs] at h; cases h

end Sys2Proof.Machine
end

