-- ==== Sys2Proof/Tests/Slice0.lean ====
section
/-! SUPPORT. Tests: the ill-formed terms that WellFormed refuses, command words written out from spec 30 R60, single steps and vectors of spec 95, and for every statement with hypotheses a state and operands that meet them. -/

namespace Sys2Proof.Tests

open Sys2Proof Sys2Proof.Machine

/-- `n` zero bytes. -/
def zeros (n : Nat) : List Byte := List.replicate n 0#8

theorem length_zeros (n : Nat) : (zeros n).length = n := List.length_replicate

/-! WellFormed refuses an ill-formed term for each of its checks. -/

theorem test_wf_refuses_no_reserved_bit : (Instr.illegalReservedRsvd .encode true 0b00000#5).wellFormed = false := by decide

theorem test_wf_accepts_reserved_bit : (Instr.illegalReservedRsvd .decode false 0b10000#5).wellFormed = true := by decide

theorem test_wf_refuses_long_payload_w1 : (Instr.encodeW1 ⟨0, 0, 0, zeros 65536⟩).wellFormed = false := by
  simp only [Instr.wellFormed, Packet.presentable, length_zeros]
  decide

theorem test_wf_refuses_long_payload_w2 : (Instr.encodeW2 ⟨0, 0, 0, zeros 65536⟩).wellFormed = false := by
  simp only [Instr.wellFormed, Packet.presentable, length_zeros]
  decide

theorem test_wf_accepts_longest_payload : (Instr.encodeW2 ⟨0, 0, 0, zeros 65535⟩).wellFormed = true := by
  simp only [Instr.wellFormed, Packet.presentable, length_zeros]
  decide

/-! Command words, bit by bit from spec 30 R60: RSVD in bits 7:3, WSEL in bit 2, OP in bits 1:0. -/

theorem test_word_encodeW1 : decode ⟨0b00000001#8, Packet.zero⟩ = .encodeW1 Packet.zero := by decide

theorem test_word_encodeW2 : decode ⟨0b00000101#8, Packet.zero⟩ = .encodeW2 Packet.zero := by decide

theorem test_word_decodeW1 : decode ⟨0b00000010#8, Packet.zero⟩ = .decodeW1 := by decide

theorem test_word_decodeW2 : decode ⟨0b00000110#8, Packet.zero⟩ = .decodeW2 := by decide

theorem test_word_abort : decode ⟨0b10110111#8, Packet.zero⟩ = .abort 0b101101#6 := by decide

theorem test_word_reserved_op : decode ⟨0b11111100#8, Packet.zero⟩ = .illegalReservedOp 0b111111#6 := by decide

theorem test_word_reserved_bits_encode :
    decode ⟨0b00001101#8, Packet.zero⟩ = .illegalReservedRsvd .encode true 0b00001#5 := by decide

theorem test_word_reserved_bits_decode :
    decode ⟨0b10000010#8, Packet.zero⟩ = .illegalReservedRsvd .decode false 0b10000#5 := by decide

theorem test_table_word_one_byte_only : decodeTableWord 16 0x01 = none ∧ decodeTableWord 8 0x100 = none ∧
    decodeTableWord 8 0x06 = some .decodeW2 := by decide

/-- Of the 256 words: 64 with OP = 00, 64 with OP = 11, 4 canonical codec words, and 124 with reserved bits set (COVERAGE.json E3). -/
theorem test_words_by_row :
    let words := (List.range 256).map (fun w => decode ⟨BitVec.ofNat 8 w, Packet.zero⟩)
    (words.countP (fun i => i.rowMask == 0x03#8 && i.rowMatch == 0x00#8), words.countP (fun i => i.rowMask == 0x03#8 && i.rowMatch == 0x03#8),
      words.countP (fun i => i.rowMask == 0xFF#8), words.countP (fun i => i.rowMask == 0x00#8)) = (64, 64, 4, 124) := by
  decide +kernel

/-! Single steps. -/

/-- The phase and log after a step, and what is left of the stream. -/
def seen (r : Result) : Option (Phase × List Response × List Byte) :=
  match r with
  | .next t => some (t.phase, t.log, t.rx.bytes)
  | .fault _ => none
  | .refused _ => none

/-- A block with an open transport that has delivered `bytes`. -/
def withBytes (bytes : List Byte) : State := { State.reset with rx := ⟨bytes, .opened⟩ }

/-- A W = 1 DECODE in D_FCS that has received LENGTH 1, HEADER 61, COMMAND 02 and payload AA (95 L2-E8), checksum 37. -/
def beforeFcs (bytes : List Byte) : State :=
  { withBytes bytes with phase := .dFcs, L := 1, acc := 0x37#8, hdr := 0x61#8, cmd := 0x02#8, idx := 1, pbuf := [(0, 0xAA#8)] }

/-- The host's next move is to issue a command. -/
def issuing (c : Command) (s : State) : State := { s with schedule := [.issue c] }

theorem test_encodeW1_vector_E1 : seen (step (issuing ⟨0x01#8, ⟨0x20#8, 0x06#8, 0x01#8, []⟩⟩ State.reset)) =
    some (.idle, [⟨.ok, none, some [0xFE#8, 0x00#8, 0x26#8, 0x01#8, 0xD8#8]⟩], []) := by decide

theorem test_encodeW1_vector_E10_masks : seen (exec (.encodeW1 ⟨0xFF#8, 0xFF#8, 0x01#8, []⟩) State.reset) =
    some (.idle, [⟨.ok, none, some [0xFE#8, 0x00#8, 0xFF#8, 0x01#8, 0x01#8]⟩], []) := by decide

theorem test_encodeW1_vector_E18_too_large :
    tooLarge .w1 ⟨0, 0, 0, zeros 253⟩ = false ∧ tooLarge .w1 ⟨0, 0, 0, zeros 254⟩ = true := by
  simp only [tooLarge, length_zeros]
  decide

theorem test_encodeW2_vector_E15 : seen (exec (.encodeW2 ⟨0x40#8, 0x01#8, 0x80#8, [0x00#8, 0xFE#8, 0xFF#8]⟩) State.reset) =
    some (.idle, [⟨.ok, none, some [0xFE#8, 0x03#8, 0x00#8, 0x41#8, 0x80#8, 0x00#8, 0xFE#8, 0xFF#8, 0x3C#8]⟩], []) := by decide

theorem test_encodeW2_vector_E24_too_large :
    tooLarge .w2 ⟨0, 0, 0, zeros 65533⟩ = false ∧ tooLarge .w2 ⟨0, 0, 0, zeros 65534⟩ = true := by
  simp only [tooLarge, length_zeros]
  decide

theorem test_decodeW1_accepted : seen (step (issuing ⟨0x02#8, Packet.zero⟩ (withBytes [0xFE#8]))) =
    some (.dSof, [], [0xFE#8]) := by decide

theorem test_decodeW2_accepted : seen (step (issuing ⟨0x06#8, Packet.zero⟩ (withBytes [0xFE#8]))) =
    some (.dSof, [], [0xFE#8]) := by decide

theorem test_decodeW2_len1_high_byte : (match step { withBytes [0x26#8] with phase := .dLen1, w := .w2, L := 0x00FD#16 } with
    | .next t => t.L.toNat
    | _ => 0) = 0x26FD := by decide

theorem test_decode_vector_D8_framing : seen (step { withBytes [0x00#8, 0xFE#8] with phase := .dSof }) =
    some (.idle, [⟨.framingError, none, none⟩], [0xFE#8]) := by decide

theorem test_decode_packet_at_fcs : seen (step (beforeFcs [0x37#8, 0x99#8])) =
    some (.idle, [⟨.ok, some ⟨0x60#8, 0x01#8, 0x02#8, [0xAA#8]⟩, none⟩], [0x99#8]) := by decide

theorem test_abort_vector_C8 : seen (step (issuing ⟨0x07#8, Packet.zero⟩ { withBytes [] with phase := .dHdr })) =
    some (.idle, [⟨.cancelled, none, none⟩], []) := by decide

theorem test_abort_vector_C7_idle : step (issuing ⟨0xFF#8, Packet.zero⟩ State.reset) = .next State.reset := by rfl

theorem test_reserved_op_vector_C1 : seen (step (issuing ⟨0x00#8, Packet.zero⟩ (withBytes [0xFE#8]))) =
    some (.idle, [⟨.illegalCommand, none, none⟩], [0xFE#8]) := by decide

theorem test_reserved_bits_vector_C4 : seen (step (issuing ⟨0x0A#8, Packet.zero⟩ (withBytes [0xFE#8, 0x00#8]))) =
    some (.idle, [⟨.illegalCommand, none, none⟩], [0xFE#8, 0x00#8]) := by decide

theorem test_port_vector_C10_encode_waits :
    (match step (issuing ⟨0x01#8, Packet.zero⟩ { withBytes [] with phase := .dSof }) with
      | .next t => (t.port, t.log)
      | _ => ([], [])) = ([⟨0x01#8, Packet.zero⟩], []) := by decide

theorem test_reset_vector_C11 : seen (step { withBytes [0x11#8] with phase := .dLen0, schedule := [.reset] }) =
    some (.idle, [], [0x11#8]) := by decide

/-- 95 L2-C12, second step: a DECODE before any transport is open. -/
theorem test_no_transport_vector_C12 : seen (step { State.reset with phase := .dSof }) =
    some (.idle, [⟨.ioError, none, none⟩], []) := by decide

theorem test_fetch_word_runs_first : seen (step (State.reset.withFetchWord 8 0x06)) = some (.dSof, [], []) := by decide

/-! Units and the algorithm of DECODE, on vectors of spec 95. -/

theorem test_header_vectors : hdrPack 0x26#8 0x26#8 = 0x26#8 ∧ hdrPack 0x1F#8 0xE0#8 = 0x00#8 ∧ hdrPack 0xA0#8 0x10#8 = 0xB0#8 ∧
    (hdrMessageType 0xFE#8, hdrSubSystem 0xFE#8) = (0xE0#8, 0x1E#8) := by decide

theorem test_checksum_vectors : fcs [] = 0xFF#8 ∧ fcs [0x00#8, 0x26#8, 0x01#8] = 0xD8#8 ∧
    fcs [0x03#8, 0x4F#8, 0x02#8, 0x01#8, 0x02#8, 0x03#8] = 0xB1#8 := by decide

theorem test_result_code_numbers :
    [ResultCode.ok, .framingError, .checksumError, .endOfStream, .ioError, .frameTooLarge, .cancelled, .illegalCommand].map
      ResultCode.toByte = [0x00#8, 0x01#8, 0x02#8, 0x03#8, 0x04#8, 0x05#8, 0x06#8, 0x07#8] := by decide

theorem test_algorithm_vector_D12 :
    decodeFrame (fun _ => 3) .w1 ⟨[0xFE#8, 0x00#8, 0x26#8, 0x01#8, 0xD8#8, 0x01#8], .opened⟩ =
      .responded ⟨.ok, some ⟨0x20#8, 0x06#8, 0x01#8, []⟩, none⟩ ⟨[0x01#8], .opened⟩ := by decide

theorem test_algorithm_vector_D25 :
    decodeFrame (fun _ => 0) .w1 ⟨[0xFE#8, 0x00#8, 0x00#8, 0x26#8, 0x01#8, 0xD8#8], .opened⟩ =
      .responded ⟨.checksumError, none, none⟩ ⟨[0xD8#8], .opened⟩ := by decide

theorem test_algorithm_vector_D21 : decodeFrame (fun k => k) .w2 ⟨[0xFE#8, 0x00#8], .closed⟩ =
    .responded ⟨.endOfStream, none, none⟩ ⟨[], .closed⟩ := by decide

theorem test_reader_vector_X5 : readExact (fun _ => 9) 2 ⟨[0x01#8], .errored⟩ = .failed .ioError ⟨[], .errored⟩ := by decide

theorem test_reader_vector_X2 : readExact (fun _ => 9) 2 ⟨[1, 2, 3, 4], .opened⟩ = .done [1, 2] ⟨[3, 4], .opened⟩ := by decide

/-! Parameters of spec 00 R5. -/

theorem test_parameters : (encMaxPayload .w1, encMaxPayload .w2, decMaxPayload .w1, decMaxPayload .w2, frameMax .w1, frameMax .w2) =
    (253, 65533, 255, 65535, 258, 65539) := by decide

/-! Witnesses: for each statement with hypotheses, data that meet all of them, and for a statement of several clauses data for
each clause. -/

/-- The Packet of 95 L1-1. -/
def pkt0 : Packet := ⟨0x20#8, 0x06#8, 0x01#8, []⟩

/-- The W = 1 frame of `pkt0`. -/
def frame0 : List Byte := [0xFE#8, 0x00#8, 0x26#8, 0x01#8, 0xD8#8]

/-- A state that meets `readyToDecode .w1`, with the frame of `pkt0` delivered. -/
def ready0 (bytes : List Byte) : State := { withBytes bytes with schedule := [.issue (decodeCommand .w1)] }

theorem witness_CommandRoundTrip : (Instr.illegalReservedRsvd .decode true 1).wellFormed = true ∧ Packet.zero.presentable = true := by
  decide

theorem witness_OpFieldSelectsOperation : (0xFC#8).toNat % 4 = 0 ∧ (0xFF#8).toNat % 4 = 3 ∧
    ((0x05#8).toNat % 4 = 1 ∧ (0x05#8).toNat / 8 = 0) ∧ ((0x06#8).toNat % 4 = 2 ∧ (0x06#8).toNat / 8 = 0) ∧
    ((0x09#8).toNat % 4 = 1 ∧ (0x09#8).toNat / 8 ≠ 0) ∧ ((0x0A#8).toNat % 4 = 2 ∧ (0x0A#8).toNat / 8 ≠ 0) := by decide

theorem witness_FrameLayout : (zeros 255).length ≤ decMaxPayload .w1 ∧
    (zeros 65535).length ≤ decMaxPayload .w2 ∧ 0 < (zeros 255).length := by
  simp only [length_zeros]
  decide

theorem witness_HeaderByteFields : (0xE0#8) &&& 0x1F#8 = 0 ∧ (0x1F#8) &&& 0xE0#8 = 0 := by decide

theorem witness_ChecksumAlgebra : [0x26#8, 0x00#8, 0x01#8].Perm [0x00#8, 0x26#8, 0x01#8] := List.Perm.swap _ _ _

theorem witness_ChecksumErrorDetection : [0x00#8, 0x26#8].length = [0x00#8, 0x27#8].length ∧ 1 < [0x00#8, 0x26#8].length ∧
    0 < [0x00#8, 0x26#8].length ∧ 7 < 8 ∧ 0 ≠ 1 := by decide

theorem witness_EncodeAnswersFrame : State.reset.phase = .idle ∧ (zeros 253).length ≤ 253 ∧
    (zeros 65533).length ≤ 65533 := by
  simp only [length_zeros]
  decide

theorem witness_EncodeFrameTooLarge : State.reset.phase = .idle ∧
    (∃ t f, exec (.encodeW1 pkt0) State.reset = .next t ∧ t.log = State.reset.log ++ [⟨.ok, none, some f⟩]) ∧
    (∃ t f, exec (.encodeW2 pkt0) State.reset = .next t ∧ t.log = State.reset.log ++ [⟨.ok, none, some f⟩]) :=
  ⟨rfl, ⟨_, _, rfl, rfl⟩, ⟨_, _, rfl, rfl⟩⟩

theorem witness_EncodeIsAtomicAndDeterministic : (Move.push [0xFE#8]).isOther = true ∧ (withBytes []).phase = .idle ∧
    ∃ t, runMove (.push [0xFE#8]) (withBytes []) = .next t := ⟨rfl, rfl, _, rfl⟩

theorem witness_EncodeMasksOutOfFormFields : State.reset.phase = .idle := rfl

theorem witness_EncodeChecksumSameAtBothWidths : (⟨0, 0, 0, zeros 255⟩ : Packet).payload.length < 256 := by
  simp only [length_zeros]
  decide

theorem witness_DecodeAccepted : State.reset.phase = .idle := rfl

/-- One state for each row of the byte step, with a byte for each of a row's two clauses. -/
theorem witness_DecoderByteStep : ∀ ph ∈ [Phase.dSof, .dLen0, .dLen1, .dHdr, .dCmd, .dPay, .dFcs],
    ({ withBytes [0xFE#8] with phase := ph } : State).portBlocked = true ∧
    ({ withBytes [0xFE#8] with phase := ph } : State).rx.bytes = 0xFE#8 :: [] ∧
    ({ withBytes [0xFE#8] with phase := ph } : State).phase = ph ∧
    ({ withBytes [0xFE#8] with phase := ph } : State).idx.toNat < 65535 := by decide

theorem witness_DecoderByteStep_bytes : (0x00#8) ≠ 0xFE#8 ∧ (0x37#8) = (beforeFcs [0x37#8]).acc ∧ (0x36#8) ≠ (beforeFcs [0x36#8]).acc ∧
    (beforeFcs [0x36#8]).portBlocked = true ∧ (0xFFFE#16).toNat < 65535 := by decide

theorem witness_PayloadBufferReadAfterWrite : Memory.wf [(0, 0xAA#8), (7, 0x01#8)] = true ∧ 3 ≠ 7 := by decide

theorem witness_PayloadIndexOutsideBufferStops : ({ beforeFcs [0x00#8] with phase := .dPay, idx := 0xFFFF } : State).portBlocked = true ∧
    ({ beforeFcs [0x00#8] with phase := .dPay, idx := 0xFFFF } : State).rx.bytes = 0x00#8 :: [] ∧
    ¬ ({ beforeFcs [0x00#8] with phase := .dPay, idx := 0xFFFF } : State).idx.toNat < 65535 := by decide

theorem witness_DecoderTerminalStep : ∀ term ∈ [RxTerm.closed, .errored],
    ({ State.reset with phase := .dSof, rx := ⟨[], term⟩ } : State).portBlocked = true ∧
    ({ State.reset with phase := .dSof, rx := ⟨[], term⟩ } : State).phase ≠ .idle ∧
    ({ State.reset with phase := .dSof, rx := ⟨[], term⟩ } : State).rx = ⟨[], term⟩ := by decide

theorem witness_DecoderHolds : ({ withBytes [] with phase := .dPay, L := 1 } : State).Inv ∧
    ({ withBytes [] with phase := .dPay, L := 1 } : State).portBlocked = true ∧
    ({ withBytes [] with phase := .dPay, L := 1 } : State).phase ≠ .idle ∧
    ({ withBytes [] with phase := .dPay, L := 1 } : State).rx = ⟨[], .opened⟩ ∧
    ({ withBytes [] with phase := .dPay, L := 1 } : State).schedule = [] ∧ Command.isAbort ⟨0xFF#8, pkt0⟩ = true := by decide

theorem witness_DecodeConsumption : (∃ r rx', decodeFrame (fun _ => 1) .w1 ⟨frame0, .opened⟩ = .responded r rx') ∧
    (∃ rx', decodeFrame (fun _ => 1) .w2 ⟨frame0, .opened⟩ = .waits rx') := ⟨⟨_, _, rfl⟩, ⟨_, rfl⟩⟩

theorem witness_DecoderAcceptsEveryLength : (zeros 255).length ≤ 2 ^ (8 * Width.w1.bytes) - 1 ∧
    (zeros 65535).length ≤ 2 ^ (8 * Width.w2.bytes) - 1 ∧
    ∃ r rx', decodeFrame (fun _ => 1) .w1 ⟨frame0, .opened⟩ = .responded r rx' := by
  simp only [length_zeros]
  exact ⟨by decide, by decide, _, _, rfl⟩

/-- A DECODE that has just been accepted, with a delivery and a closing still to come; before any step of it, and after one. -/
def accepted0 : State := { withBytes [0xFE#8] with phase := .dSof, schedule := [.block, .push [0x00#8], .close] }

theorem witness_DecoderRefinesAlgorithm : accepted0.phase = .dSof ∧ accepted0.w = .w1 ∧ accepted0.port = [] ∧
    accepted0.pbuf.wf = true ∧ (∀ m ∈ accepted0.schedule, m.isTransport = true) ∧
    ∃ t, runSteps 1 accepted0 = .next t ∧ t.phase ≠ .idle ∧ t.rx = ⟨[], .opened⟩ :=
  ⟨rfl, rfl, rfl, rfl, by decide, _, rfl, by decide, rfl⟩

theorem witness_DecoderRefinesAlgorithm_idle : ∃ t, runSteps 1 { withBytes [0x00#8] with phase := .dSof } = .next t ∧ t.phase = .idle :=
  ⟨_, rfl, rfl⟩

theorem witness_DecoderRefinesAlgorithm_long : ∃ t, runSteps 2 { withBytes [0x00#8] with phase := .dSof } = .next t ∧
    0 + [0x00#8].length + 1 ≤ 2 := ⟨_, rfl, by decide⟩

theorem witness_RoundTripOnTheMachine : packetWF pkt0 .w1 = true ∧ State.reset.phase = .idle ∧
    (∃ e', exec (encodeInstr .w1 pkt0) State.reset = .next e' ∧ e'.log = State.reset.log ++ [⟨.ok, none, some frame0⟩]) ∧
    (ready0 (frame0 ++ [0x99#8])).readyToDecode .w1 ∧ (ready0 (frame0 ++ [0x99#8])).rx.bytes = frame0 ++ [0x99#8] :=
  ⟨by decide, rfl, ⟨_, rfl, rfl⟩, by decide, rfl⟩

/-- Bits of the three regions: SOF at 0, LENGTH at 1, the rest from 2 to 4. -/
theorem witness_SingleBitFlips : packetWF pkt0 .w1 = true ∧ 7 < 8 ∧ (packetFrame .w1 pkt0).length = 5 ∧
    ∀ i ∈ [0, 1, 2, 4], i < (packetFrame .w1 pkt0).length ∧
      (ready0 (flipBit (packetFrame .w1 pkt0) i 7 ++ [0x99#8])).readyToDecode .w1 ∧
      (ready0 (flipBit (packetFrame .w1 pkt0) i 7 ++ [0x99#8])).rx.bytes = flipBit (packetFrame .w1 pkt0) i 7 ++ [0x99#8] := by
  decide

/-- Two DECODEs wait at the port of an idle block on two frames. -/
def twoWaiting : State := { withBytes (frame0 ++ frame0) with port := [decodeCommand .w1, decodeCommand .w1] }

theorem witness_BackToBackFrames : (∀ p ∈ [pkt0, pkt0], packetWF p .w1 = true) ∧ twoWaiting.phase = .idle ∧
    twoWaiting.schedule = [] ∧ twoWaiting.pbuf.wf = true ∧
    twoWaiting.port = List.replicate [pkt0, pkt0].length (decodeCommand .w1) ∧
    twoWaiting.rx.bytes = ([pkt0, pkt0].map (packetFrame .w1)).flatten ++ [] := by decide

theorem witness_ExhaustedStream : ∀ term ∈ [RxTerm.closed, .errored],
    ({ State.reset with port := [decodeCommand .w2], rx := ⟨[], term⟩ } : State).phase = .idle ∧
    ({ State.reset with port := [decodeCommand .w2], rx := ⟨[], term⟩ } : State).schedule = [] ∧
    ({ State.reset with port := [decodeCommand .w2], rx := ⟨[], term⟩ } : State).port = List.replicate 1 (decodeCommand .w2) ∧
    ({ State.reset with port := [decodeCommand .w2], rx := ⟨[], term⟩ } : State).rx = ⟨[], term⟩ := by decide

theorem witness_RepeatedDecodeFindsTheFrame : packetWF pkt0 .w1 = true ∧ (∀ b ∈ [0x00#8], b ≠ 0xFE#8) ∧
    ({ twoWaiting with rx := ⟨[0x00#8] ++ frame0, .opened⟩ } : State).phase = .idle ∧
    ({ twoWaiting with rx := ⟨[0x00#8] ++ frame0, .opened⟩ } : State).schedule = [] ∧
    ({ twoWaiting with rx := ⟨[0x00#8] ++ frame0, .opened⟩ } : State).pbuf.wf = true ∧
    ({ twoWaiting with rx := ⟨[0x00#8] ++ frame0, .opened⟩ } : State).port = List.replicate ([0x00#8].length + 1) (decodeCommand .w1) ∧
    ({ twoWaiting with rx := ⟨[0x00#8] ++ frame0, .opened⟩ } : State).rx.bytes = [0x00#8] ++ packetFrame .w1 pkt0 ++ [] := by decide

theorem witness_ReadSomeOutcomes : 1 ≤ 2 ∧ (⟨frame0, .opened⟩ : RxStream).bytes ≠ [] ∧ (1 ≤ 2 ∧ 2 ≤ min 2 frame0.length) ∧
    ∀ term ∈ [RxTerm.opened, .closed, .errored], (⟨[], term⟩ : RxStream).bytes = [] ∧ (⟨[], term⟩ : RxStream).term = term := by decide

theorem witness_ChunkingIsInvisible : 5 ≤ (⟨frame0, .opened⟩ : RxStream).bytes.length ∧
    ∀ term ∈ [RxTerm.opened, .closed, .errored],
      (⟨frame0, term⟩ : RxStream).bytes.length < 6 ∧ (⟨frame0, term⟩ : RxStream).term = term := by decide

theorem witness_AbortEndsDecode : (beforeFcs []).phase ≠ .idle := by decide

theorem witness_AbortWhileIdle : State.reset.phase = .idle ∧ ∃ t, exec (encodeInstr .w2 pkt0) State.reset = .next t :=
  ⟨rfl, _, rfl⟩

/-- An ABORT after `k` byte steps of the DECODE of `frame0`. -/
def abortAfter (k : Nat) : State :=
  { withBytes frame0 with schedule := .issue (decodeCommand .w1) :: (List.replicate k Move.block ++ [Move.issue ⟨0x03#8, pkt0⟩]) }

theorem witness_AbortAtAnyPoint : packetWF pkt0 .w1 = true ∧ Command.isAbort ⟨0x03#8, pkt0⟩ = true ∧
    (packetFrame .w1 pkt0).length = 5 ∧ ∀ k ∈ [0, 4, 5],
      (abortAfter k).phase = .idle ∧ (abortAfter k).port = [] ∧ (abortAfter k).pbuf.wf = true ∧
      (abortAfter k).rx.bytes = packetFrame .w1 pkt0 ++ [] := by decide

theorem witness_ReservedOpAnswersIllegal : State.reset.phase = .idle ∧ State.reset.port = [] ∧ (0xFC#8).toNat % 4 = 0 := by decide

theorem witness_ReservedBitsAnswerIllegal : State.reset.phase = .idle ∧ State.reset.port = [] ∧
    ((0x09#8).toNat % 4 = 1 ∧ (0x09#8).toNat / 8 ≠ 0) ∧ ((0xFA#8).toNat % 4 = 2 ∧ (0xFA#8).toNat / 8 ≠ 0) := by decide

theorem witness_PortReadiness : Command.isAbort ⟨0x01#8, pkt0⟩ = false ∧ (beforeFcs []).phase ≠ .idle ∧
    (∀ x, Instr.decodeW1 ≠ .abort x) ∧ (State.reset.phase = .idle ∧ State.reset.port = []) ∧
    (twoWaiting.phase = .idle ∧ twoWaiting.port = decodeCommand .w1 :: [decodeCommand .w1]) ∧
    (⟨0xFF#8, pkt0⟩ : Command).word.toNat % 4 = 3 := by decide

theorem witness_WaitingCommandsKeepOrder :
    (∃ t, step twoWaiting = .next t ∧ twoWaiting.port = decodeCommand .w1 :: t.port) ∧
    (∃ t, step (issuing (decodeCommand .w1) (beforeFcs [])) = .next t ∧
      (issuing (decodeCommand .w1) (beforeFcs [])).schedule.head? = some (.issue (decodeCommand .w1))) ∧
    (∃ t, step { twoWaiting with schedule := [.reset] } = .next t) := ⟨⟨_, rfl, rfl⟩, ⟨_, rfl, rfl⟩, ⟨_, rfl⟩⟩

theorem witness_StepRunsDecodedCommand :
    ((issuing ⟨0x03#8, pkt0⟩ (beforeFcs [])).schedule = .issue ⟨0x03#8, pkt0⟩ :: [] ∧ Command.isAbort ⟨0x03#8, pkt0⟩ = true) ∧
    ((ready0 []).schedule = .issue (decodeCommand .w1) :: [] ∧ (ready0 []).phase = .idle ∧ (ready0 []).port = []) ∧
    (twoWaiting.schedule = [] ∧ twoWaiting.port = decodeCommand .w1 :: [decodeCommand .w1] ∧
      twoWaiting.accepts (decodeCommand .w1) = true) := by decide

theorem witness_InstructionFrames : (∃ t, exec (.encodeW1 pkt0) State.reset = .next t) ∧ (∃ t, exec .decodeW2 (beforeFcs []) = .next t) ∧
    (∃ t, exec (.abort 0) (beforeFcs []) = .next t) := ⟨⟨_, rfl⟩, ⟨_, rfl⟩, ⟨_, rfl⟩⟩

theorem witness_BlockConsumesFromTheFront : ∃ t, blockStep (beforeFcs [0x37#8]) = .next t := ⟨_, rfl⟩

theorem witness_OneResponsePerStep : ∃ t, step (beforeFcs [0x37#8]) = .next t := ⟨_, rfl⟩

/-- The step from `s` answers a next state whose log is that of `s` and `r`. -/
def answers (s : State) (r : Response) : Bool :=
  match step s with
  | .next t => t.log == s.log ++ [r]
  | .fault _ => false
  | .refused _ => false

/-- A state and a response for each result code; FRAME_TOO_LARGE follows. -/
theorem witness_CodesHaveTheirCauses :
    answers (beforeFcs [0x37#8]) ⟨.ok, some ⟨0x60#8, 0x01#8, 0x02#8, [0xAA#8]⟩, none⟩ = true ∧
    answers (issuing ⟨0x01#8, pkt0⟩ State.reset) ⟨.ok, none, some frame0⟩ = true ∧
    answers (beforeFcs [0x36#8]) ⟨.checksumError, none, none⟩ = true ∧
    answers { withBytes [0x00#8] with phase := .dSof } ⟨.framingError, none, none⟩ = true ∧
    answers { State.reset with phase := .dSof, rx := ⟨[], .closed⟩ } ⟨.endOfStream, none, none⟩ = true ∧
    answers { State.reset with phase := .dSof } ⟨.ioError, none, none⟩ = true ∧
    answers (issuing ⟨0x03#8, pkt0⟩ (beforeFcs [])) ⟨.cancelled, none, none⟩ = true ∧
    answers (issuing ⟨0x00#8, pkt0⟩ State.reset) ⟨.illegalCommand, none, none⟩ = true := by decide

theorem witness_CodesHaveTheirCauses_tooLarge :
    answers (issuing ⟨0x01#8, ⟨0, 0, 0, zeros 254⟩⟩ State.reset) ⟨.frameTooLarge, none, none⟩ = true := by decide +kernel

theorem witness_ResetInput : ({ beforeFcs [] with schedule := [.reset] } : State).schedule = .reset :: [] ∧
    ({ beforeFcs [] with schedule := [.reset] } : State).port = [] ∧
    ({ twoWaiting with schedule := [.reset] } : State).port = decodeCommand .w1 :: [decodeCommand .w1] := by decide

theorem witness_TransportMoves : (withBytes []).rx.term = .opened ∧ State.reset.rx.term ≠ .opened ∧ State.reset.phase = .idle ∧
    (beforeFcs []).phase ≠ .idle := by decide

theorem witness_StepKeepsInv : (beforeFcs [0x37#8]).Inv ∧ ∃ t, step (beforeFcs [0x37#8]) = .next t := ⟨by decide, _, rfl⟩

theorem witness_StepNeverStopsByItself : (beforeFcs [0x37#8]).Inv ∧ (beforeFcs [0x37#8]).nextMoveEnabled = true := by decide

/-- The next move, made where it may not be: closing a stream that is not OPEN, and reopening one while a DECODE is in progress. -/
def misplaced (m : Move) (s : State) : State := { s with schedule := [m] }

theorem witness_StepNeverStopsByItself_refused :
    (misplaced .close State.reset).Inv ∧ Move.enabled .close (misplaced .close State.reset) = false ∧
    (misplaced .reopen (beforeFcs [])).Inv ∧ Move.enabled .reopen (misplaced .reopen (beforeFcs [])) = false := by decide

theorem witness_StepNeverStopsByItself_kept :
    State.reset.Inv ∧ State.reset.phase = .idle ∧ State.reset.port = [] ∧ State.reset.schedule = [] ∧
    (beforeFcs []).Inv ∧ (beforeFcs []).phase ≠ .idle ∧ (beforeFcs []).portBlocked = true ∧
    (beforeFcs []).rx = ⟨[], .opened⟩ ∧ (beforeFcs []).schedule = [] := by decide

theorem witness_IdleRegistersAreDead : State.reset.phase = .idle ∧ State.reset.pbuf.wf = true ∧
    ({ State.reset with w := .w2, L := 5, acc := 1, hdr := 2, cmd := 3, idx := 4, pbuf := [(9, 0x01#8)] } : State).pbuf.wf = true ∧
    State.reset.sameOutside { State.reset with w := .w2, L := 5, acc := 1, hdr := 2, cmd := 3, idx := 4, pbuf := [(9, 0x01#8)] } := by
  decide

/-- Two instances that read stream 0, and one that reads stream 1. -/
def threeInstances : System where
  insts := [{ State.reset with phase := .dSof }, { State.reset with phase := .dSof }, { State.reset with phase := .dSof }]
  streams := [⟨frame0, .opened⟩, ⟨[0x00#8], .opened⟩]
  link := [0, 0, 1]

theorem witness_InstancesAreIndependent : ∃ a b, threeInstances.stepInst 0 = .next a ∧ 2 ≠ 0 ∧ threeInstances.link[0]? = some 0 ∧
    threeInstances.link[2]? = some 1 ∧ 0 ≠ 1 ∧ a.stepInst 2 = .next b := ⟨_, _, rfl, by decide, rfl, rfl, by decide, rfl⟩

theorem witness_SharedByteGoesToOneReader : ∃ s u rx a, 1 ≠ 0 ∧ threeInstances.insts[0]? = some s ∧ threeInstances.insts[1]? = some u ∧
    threeInstances.link[0]? = some 0 ∧ threeInstances.link[1]? = some 0 ∧ threeInstances.streams[0]? = some rx ∧ s.schedule = [] ∧
    threeInstances.stepInst 0 = .next a := ⟨_, _, _, _, by decide, rfl, rfl, rfl, rfl, rfl, rfl, rfl⟩

end Sys2Proof.Tests
end

section
/-! PROOFS. The encodings of spec 30: the bits of the HEADER byte (R64) and the offsets of a frame's fields (R70). -/

namespace Sys2Proof.Machine

open Sys2Proof

/-! The HEADER byte, bit by bit. -/

theorem getLsbD_messageTypeMask {i : Nat} (hi : i < 8) : (0xE0#8).getLsbD i = !decide (i < 5) := by
  revert i
  decide

theorem getLsbD_subSystemMask {i : Nat} (hi : i < 8) : (0x1F#8).getLsbD i = decide (i < 5) := by
  revert i
  decide

/-- HDR_PACK takes bits 4:0 from the subsystem and bits 7:5 from the message type, whatever the other bits are. -/
theorem getLsbD_hdrPack (t s : Byte) {i : Nat} (hi : i < 8) :
    (hdrPack t s).getLsbD i = if i < 5 then s.getLsbD i else t.getLsbD i := by
  by_cases h : i < 5 <;>
    simp [hdrPack, BitVec.getLsbD_and, getLsbD_messageTypeMask hi, getLsbD_subSystemMask hi, h]

/-- A subsystem in place has no bit above bit 4. -/
theorem getLsbD_subSystem_inPlace {s : Byte} (hs : s &&& 0xE0#8 = 0) {i : Nat} (h : ¬ i < 5) (hi : i < 8) :
    s.getLsbD i = false := by
  have hbit : (s &&& 0xE0#8).getLsbD i = false := by simp [hs]
  simpa [BitVec.getLsbD_and, getLsbD_messageTypeMask hi, h] using hbit

theorem hdrPack_messageTypeField (t s : Byte) : (hdrPack t s).extractLsb' 5 3 = (t >>> 5).setWidth 3 := by
  refine BitVec.eq_of_getLsbD_eq fun i hi => ?_
  simp [hi, getLsbD_hdrPack t s (show 5 + i < 8 by omega)]

theorem hdrPack_subSystemField (t s : Byte) : (hdrPack t s).extractLsb' 0 5 = s.setWidth 5 := by
  refine BitVec.eq_of_getLsbD_eq fun i hi => ?_
  simp [hi, getLsbD_hdrPack t s (show i < 8 by omega)]

/-- For a subsystem in place, HDR_PACK is `(mt3 << 5) | subSystem` (spec 30 R64). -/
theorem hdrPack_eq_shift_or (t : Byte) {s : Byte} (hs : s &&& 0xE0#8 = 0) : hdrPack t s = ((t >>> 5) <<< 5) ||| s := by
  refine BitVec.eq_of_getLsbD_eq fun i hi => ?_
  rw [getLsbD_hdrPack t s hi]
  by_cases h : i < 5
  · simp [h]
  · rw [BitVec.getLsbD_or, getLsbD_subSystem_inPlace hs h hi]
    simp [h, hi, Nat.add_sub_cancel' (Nat.not_lt.mp h)]

/-! The LENGTH bytes. -/

@[simp] theorem length_leBytes (width : Width) (v : Half) : (leBytes width v).length = width.bytes := by
  cases width <;> rfl

/-- One LENGTH byte holds every count up to DEC_MAX_PAYLOAD(1). -/
theorem toNat_lengthByte_w1 {n : Nat} (h : n ≤ decMaxPayload .w1) :
    ((BitVec.ofNat 16 n).extractLsb' 0 8).toNat = n := by
  simp only [decMaxPayload, Width.bytes] at h
  simp only [BitVec.extractLsb'_toNat, BitVec.toNat_ofNat, Nat.shiftRight_zero]
  omega

/-- Two LENGTH bytes, the first one lowest, hold every count up to DEC_MAX_PAYLOAD(2). -/
theorem toNat_lengthBytes_w2 {n : Nat} (h : n ≤ decMaxPayload .w2) :
    ((BitVec.ofNat 16 n).extractLsb' 0 8).toNat + 256 * ((BitVec.ofNat 16 n).extractLsb' 8 8).toNat = n := by
  simp only [decMaxPayload, Width.bytes] at h
  simp only [BitVec.extractLsb'_toNat, BitVec.toNat_ofNat, Nat.shiftRight_eq_div_pow]
  omega

/-! The body of a frame. -/

section Body

variable (width : Width) (len : Half) (header command : Byte) (payload : List Byte)

@[simp] theorem length_frameBody :
    (frameBody width len header command payload).length = payload.length + width.bytes + 2 := by
  simp [frameBody]
  omega

theorem frameBody_header : (frameBody width len header command payload)[width.bytes]? = some header := by
  cases width <;> rfl

theorem frameBody_command : (frameBody width len header command payload)[width.bytes + 1]? = some command := by
  cases width <;> rfl

theorem frameBody_payload (k : Nat) :
    (frameBody width len header command payload)[width.bytes + 2 + k]? = payload[k]? := by
  have hpre : (leBytes width len ++ [header] ++ [command]).length = width.bytes + 2 := by simp
  rw [frameBody, List.getElem?_append_right (by omega), hpre, Nat.add_sub_cancel_left]

end Body

/-! The frame around a body. -/

section Frame

variable (body : List Byte)

@[simp] theorem length_frameAround : (frameAround body).length = body.length + 2 := by
  simp [frameAround]

theorem frameAround_sof : (frameAround body)[0]? = some 0xFE#8 := rfl

/-- Behind SOF a frame holds its body. -/
theorem frameAround_body {n : Nat} (h : n < body.length) : (frameAround body)[1 + n]? = body[n]? := by
  simp [frameAround, Nat.add_comm 1 n, List.getElem?_append_left h]

/-- The last byte of a frame is the checksum of its body. -/
theorem frameAround_fcs : (frameAround body)[1 + body.length]? = some (fcs body) := by
  simp [frameAround, Nat.add_comm 1 body.length]

/-- What stands between SOF and the FCS is the body. -/
theorem frameAround_between : ((frameAround body).drop 1).take body.length = body := by
  simp [frameAround]

end Frame

/-! The two statements. -/

/-- Settles O5: both fields and the shifted form are read off the bits of HDR_PACK. -/
theorem headerByteFields : Obligations.HeaderByteFields := by
  intro t s _ hs
  exact ⟨rfl, hdrPack_messageTypeField t s, hdrPack_subSystemField t s, hdrPack_eq_shift_or t hs⟩

/-- Settles O4: byte `1 + n` of the frame is byte `n` of its body, and the fields of the body stand in order. -/
theorem frameLayout : Obligations.FrameLayout := by
  intro width header command payload hlen
  generalize hbody : frameBody width (BitVec.ofNat 16 payload.length) header command payload = body
  have hsize : body.length = payload.length + width.bytes + 2 := by simp [← hbody]
  have hfield {n : Nat} (h : n < payload.length + width.bytes + 2) : (frameAround body)[1 + n]? = body[n]? :=
    frameAround_body body (hsize ▸ h)
  refine ⟨by simp [hsize], frameAround_sof body, ?length, ?header, ?command, ?payload, ?fcs⟩
  case length =>
    subst hbody
    cases width with
    | w1 => exact ⟨_, rfl, toNat_lengthByte_w1 hlen⟩
    | w2 => exact ⟨_, _, rfl, rfl, toNat_lengthBytes_w2 hlen⟩
  case header => rw [hfield (by omega), ← hbody, frameBody_header]
  case command =>
    rw [show 2 + width.bytes = 1 + (width.bytes + 1) by omega, hfield (by omega), ← hbody, frameBody_command]
  case payload =>
    intro k hk
    rw [show 3 + width.bytes + k = 1 + (width.bytes + 2 + k) by omega, hfield (by omega), ← hbody, frameBody_payload]
  case fcs =>
    have hlast : 3 + width.bytes + payload.length = 1 + body.length := by omega
    rw [hlast, frameAround_fcs, ← hsize, frameAround_between]

end Sys2Proof.Machine
end

section
/-! PROOFS. The header unit and the checksum generator of spec 40: the laws of HDR_PACK and HDR_UNPACK (R82) and the algebra
of the XOR fold and of FCS (R84). -/

namespace Sys2Proof.Machine

open Sys2Proof

/-! The two masks of the HEADER byte. -/

/-- A word is kept by a mask exactly when it has no bit in the complement of the mask. -/
theorem and_eq_self_iff_and_not_eq_zero {n : Nat} (x m : BitVec n) : x &&& m = x ↔ x &&& ~~~m = 0 := by
  have hsplit : (x &&& m) ^^^ x = x &&& ~~~m := by
    ext i hi
    cases hx : x[i] <;> simp [hx]
  rw [← BitVec.xor_eq_zero_iff, hsplit]
  rfl

/-- A message type is kept by its mask exactly when it is in place (spec 10 R21). -/
theorem and_messageTypeMask_eq_self_iff (t : Byte) : t &&& 0xE0#8 = t ↔ t &&& 0x1F#8 = 0 :=
  and_eq_self_iff_and_not_eq_zero t 0xE0#8

/-- A subsystem is kept by its mask exactly when it is in place (spec 10 R21). -/
theorem and_subSystemMask_eq_self_iff (s : Byte) : s &&& 0x1F#8 = s ↔ s &&& 0xE0#8 = 0 :=
  and_eq_self_iff_and_not_eq_zero s 0x1F#8

theorem and_mask_idempotent {n : Nat} (x m : BitVec n) : (x &&& m) &&& m = x &&& m := by
  rw [BitVec.and_assoc, BitVec.and_self]

/-! HDR_UNPACK after HDR_PACK, and HDR_PACK after HDR_UNPACK. -/

@[simp] theorem hdrMessageType_hdrPack (t s : Byte) : hdrMessageType (hdrPack t s) = t &&& 0xE0#8 := by
  refine BitVec.eq_of_getLsbD_eq fun i hi => ?_
  rw [hdrMessageType, BitVec.getLsbD_and, BitVec.getLsbD_and, getLsbD_hdrPack t s hi, getLsbD_messageTypeMask hi]
  by_cases h : i < 5 <;> simp [h]

@[simp] theorem hdrSubSystem_hdrPack (t s : Byte) : hdrSubSystem (hdrPack t s) = s &&& 0x1F#8 := by
  refine BitVec.eq_of_getLsbD_eq fun i hi => ?_
  rw [hdrSubSystem, BitVec.getLsbD_and, BitVec.getLsbD_and, getLsbD_hdrPack t s hi, getLsbD_subSystemMask hi]
  by_cases h : i < 5 <;> simp [h]

/-- Each bit of a HEADER byte is under exactly one of the two masks, so packing what was unpacked restores it. -/
@[simp] theorem hdrPack_hdrUnpack (h : Byte) : hdrPack (hdrMessageType h) (hdrSubSystem h) = h := by
  refine BitVec.eq_of_getLsbD_eq fun i hi => ?_
  rw [getLsbD_hdrPack _ _ hi, hdrMessageType, hdrSubSystem, BitVec.getLsbD_and, BitVec.getLsbD_and,
    getLsbD_messageTypeMask hi, getLsbD_subSystemMask hi]
  by_cases h5 : i < 5 <;> simp [h5]

/-- The unpacked message type is in place. -/
theorem hdrMessageType_inPlace (h : Byte) : hdrMessageType h &&& 0x1F#8 = 0 :=
  (and_messageTypeMask_eq_self_iff _).mp (and_mask_idempotent h _)

/-- The unpacked subsystem is in place. -/
theorem hdrSubSystem_inPlace (h : Byte) : hdrSubSystem h &&& 0xE0#8 = 0 :=
  (and_subSystemMask_eq_self_iff _).mp (and_mask_idempotent h _)

/-- HDR_UNPACK inverts HDR_PACK on exactly the pairs in place. -/
theorem hdrUnpack_hdrPack_eq_self_iff (t s : Byte) :
    (hdrMessageType (hdrPack t s) = t ∧ hdrSubSystem (hdrPack t s) = s) ↔ (t &&& 0x1F#8 = 0 ∧ s &&& 0xE0#8 = 0) := by
  rw [hdrMessageType_hdrPack, hdrSubSystem_hdrPack, and_messageTypeMask_eq_self_iff, and_subSystemMask_eq_self_iff]

/-! The XOR fold. -/

theorem foldXor_eq_foldl (seed : Byte) (l : List Byte) : foldXor seed l = l.foldl (· ^^^ ·) seed := by
  induction l generalizing seed with
  | nil => rfl
  | cons b rest ih => exact ih (seed ^^^ b)

theorem foldXor_append (seed : Byte) (a b : List Byte) : foldXor seed (a ++ b) = foldXor (foldXor seed a) b := by
  simp only [foldXor_eq_foldl, List.foldl_append]

theorem foldXor_perm (seed : Byte) {a b : List Byte} (h : a.Perm b) : foldXor seed a = foldXor seed b := by
  simpa only [foldXor_eq_foldl] using h.foldl_eq seed

/-- The seed can be taken out of the fold: it enters the XOR as one more byte. -/
theorem foldXor_eq_xor_foldXor_zero (seed : Byte) (l : List Byte) : foldXor seed l = seed ^^^ foldXor 0x00#8 l := by
  have hassoc : l.foldl (· ^^^ ·) (seed ^^^ 0x00#8) = seed ^^^ l.foldl (· ^^^ ·) 0x00#8 := List.foldl_assoc
  rwa [BitVec.xor_zero, ← foldXor_eq_foldl, ← foldXor_eq_foldl] at hassoc

/-! FCS. -/

theorem fcs_eq_xor (b : List Byte) : fcs b = 0xFF#8 ^^^ foldXor 0x00#8 b :=
  foldXor_eq_xor_foldXor_zero Config.fcsSeed b

theorem fcs_eq_not (b : List Byte) : fcs b = ~~~(foldXor 0x00#8 b) := by
  rw [fcs_eq_xor, ← BitVec.allOnes_xor]
  rfl

/-- The accumulator that has folded in a body and then its FCS is 0x00, as every byte is its own inverse. -/
theorem foldXor_append_fcs (b : List Byte) : foldXor 0xFF#8 (b ++ [fcs b]) = 0x00#8 :=
  calc foldXor 0xFF#8 (b ++ [fcs b]) = fcs b ^^^ fcs b := foldXor_append 0xFF#8 b [fcs b]
    _ = 0x00#8 := BitVec.xor_self

/-- The bytes of a frame after SOF are its body and the FCS of the body. -/
theorem frameAround_tail (b : List Byte) : (frameAround b).tail = b ++ [fcs b] := rfl

/-- The plain XOR of a frame after SOF is the seed of FCS. -/
theorem foldXor_frameAround_tail (b : List Byte) : foldXor 0x00#8 (frameAround b).tail = 0xFF#8 := by
  have hclosed : 0xFF#8 ^^^ foldXor 0x00#8 (b ++ [fcs b]) = 0x00#8 := by
    rw [← foldXor_eq_xor_foldXor_zero, foldXor_append_fcs]
  rw [frameAround_tail, ← BitVec.xor_eq_zero_iff.mp hclosed]

/-! The two statements. -/

/-- Settles O6: the pair in place that packs to a HEADER byte is what HDR_UNPACK gives, and it is the only one because
HDR_UNPACK inverts HDR_PACK on pairs in place. -/
theorem headerUnitLaws : Obligations.HeaderUnitLaws := by
  refine ⟨hdrPack_hdrUnpack, fun t s => ?unpackPack, fun t s => ?idempotent, fun h => ?oneToOne⟩
  case unpackPack => exact ⟨hdrMessageType_hdrPack t s, hdrSubSystem_hdrPack t s, hdrUnpack_hdrPack_eq_self_iff t s⟩
  case idempotent => exact ⟨and_mask_idempotent t _, and_mask_idempotent s _⟩
  case oneToOne =>
    refine ⟨hdrMessageType h, hdrSubSystem h,
      ⟨hdrMessageType_inPlace h, hdrSubSystem_inPlace h, hdrPack_hdrUnpack h⟩, ?_⟩
    rintro t' s' ht hs rfl
    obtain ⟨hmt, hss⟩ := (hdrUnpack_hdrPack_eq_self_iff t' s').mpr ⟨ht, hs⟩
    exact ⟨hmt.symm, hss.symm⟩

/-- Settles O7: each item is the property of the XOR fold it comes from, read at the seed of FCS. -/
theorem checksumAlgebra : Obligations.ChecksumAlgebra :=
  ⟨fun _ _ hperm => foldXor_perm Config.fcsSeed hperm, fun a b => foldXor_append Config.fcsSeed a b,
    fun b => ⟨foldXor_append_fcs b, foldXor_frameAround_tail b⟩, fun b => ⟨fcs_eq_xor b, fcs_eq_not b⟩⟩

end Sys2Proof.Machine
end

section
/-! PROOFS. ENCODE of spec 41: the response of an accepted ENCODE, the payload bound behind FRAME_TOO_LARGE (R101), and the
bytes of the frame that is answered otherwise (R103). -/

namespace Sys2Proof.Machine

open Sys2Proof

/-! The size check. -/

/-- What is left for the payload is ENC_MAX_PAYLOAD(W): the bound of spec 41 R101 without the two bytes of HEADER and
COMMAND. -/
theorem add_two_gt_lengthMax_iff (width : Width) (n : Nat) :
    n + 2 > 2 ^ (8 * width.bytes) - 1 ↔ n > encMaxPayload width := by
  cases width <;> simp only [encMaxPayload, Width.bytes, Config.cmdBytes] <;> omega

theorem tooLarge_eq_true_iff (width : Width) (p : Packet) :
    tooLarge width p = true ↔ p.payload.length + 2 > 2 ^ (8 * width.bytes) - 1 :=
  decide_eq_true_iff

theorem tooLarge_eq_false_iff (width : Width) (p : Packet) :
    tooLarge width p = false ↔ p.payload.length ≤ encMaxPayload width := by
  rw [← Bool.not_eq_true, tooLarge_eq_true_iff, add_two_gt_lengthMax_iff, gt_iff_lt, not_lt]

/-- An encoder fills less of the LENGTH field than a decoder reads from it. -/
theorem encMaxPayload_le_decMaxPayload (width : Width) : encMaxPayload width ≤ decMaxPayload width :=
  Nat.sub_le _ _

/-! The response of ENCODE. -/

/-- The response of an accepted ENCODE: a function of its operands alone (spec 41 R105). -/
def encodeResponse (width : Width) (p : Packet) : Response :=
  if tooLarge width p then Response.error .frameTooLarge else Response.okFrame (packetFrame width p)

/-- Everything an ENCODE does to an idle block: its response is appended. -/
theorem exec_encodeInstr_of_idle (width : Width) (p : Packet) {s : State} (h : s.phase = .idle) :
    exec (encodeInstr width p) s = .next { s with log := s.log ++ [encodeResponse width p] } := by
  rw [encodeResponse, ← encodeAccepted_eq width p h]
  cases width with
  | w1 => exact whenIdle_of_idle _ _ h
  | w2 => exact whenIdle_of_idle _ _ h

theorem encodeResponse_eq_frameTooLarge_iff (width : Width) (p : Packet) :
    encodeResponse width p = ⟨.frameTooLarge, none, none⟩ ↔ tooLarge width p = true := by
  cases h : tooLarge width p <;> simp [encodeResponse, h, Response.error, Response.okFrame]

/-- The only frame an ENCODE ever answers is that of its Packet, and the payload then fits. -/
theorem encodeResponse_eq_okFrame_iff (width : Width) (p : Packet) (f : List Byte) :
    encodeResponse width p = ⟨.ok, none, some f⟩ ↔ p.payload.length ≤ encMaxPayload width ∧ packetFrame width p = f := by
  rw [← tooLarge_eq_false_iff]
  cases h : tooLarge width p <;> simp [encodeResponse, h, Response.error, Response.okFrame]

section Idle

variable (width : Width) (p : Packet) {s : State} (hidle : s.phase = .idle)
include hidle

theorem exec_encodeInstr_of_fits (h : p.payload.length ≤ encMaxPayload width) :
    exec (encodeInstr width p) s = .next { s with log := s.log ++ [⟨.ok, none, some (packetFrame width p)⟩] } := by
  rw [exec_encodeInstr_of_idle width p hidle, (encodeResponse_eq_okFrame_iff width p _).mpr ⟨h, rfl⟩]

theorem exec_encodeInstr_eq_frameTooLarge_iff :
    exec (encodeInstr width p) s = .next { s with log := s.log ++ [⟨.frameTooLarge, none, none⟩] } ↔
      p.payload.length + 2 > 2 ^ (8 * width.bytes) - 1 := by
  rw [exec_encodeInstr_of_idle width p hidle, ← tooLarge_eq_true_iff, ← encodeResponse_eq_frameTooLarge_iff]
  simp

theorem fits_of_exec_encodeInstr_answers_frame {t : State} {f : List Byte}
    (hexec : exec (encodeInstr width p) s = .next t) (hlog : t.log = s.log ++ [⟨.ok, none, some f⟩]) :
    p.payload.length ≤ encMaxPayload width ∧ packetFrame width p = f := by
  rw [exec_encodeInstr_of_idle width p hidle] at hexec
  obtain rfl := Host.Outcome.next.inj hexec
  rw [← encodeResponse_eq_okFrame_iff]
  simpa using hlog

end Idle

/-! The bytes of the frame. -/

theorem lowByte_ofNat (n : Nat) : (BitVec.ofNat 16 n).extractLsb' 0 8 = BitVec.ofNat 8 n := by
  apply BitVec.eq_of_toNat_eq
  simp only [BitVec.extractLsb'_toNat, BitVec.toNat_ofNat, Nat.shiftRight_zero]
  omega

theorem highByte_ofNat (n : Nat) : (BitVec.ofNat 16 n).extractLsb' 8 8 = BitVec.ofNat 8 (n / 256) := by
  apply BitVec.eq_of_toNat_eq
  simp only [BitVec.extractLsb'_toNat, BitVec.toNat_ofNat, Nat.shiftRight_eq_div_pow]
  omega

theorem packetBody_w1 (p : Packet) :
    packetBody .w1 p =
      BitVec.ofNat 8 p.payload.length :: hdrPack p.messageType p.subSystem :: p.commandId :: p.payload := by
  rw [← lowByte_ofNat]
  rfl

theorem packetBody_w2 (p : Packet) :
    packetBody .w2 p =
      BitVec.ofNat 8 p.payload.length :: BitVec.ofNat 8 (p.payload.length / 256) ::
        hdrPack p.messageType p.subSystem :: p.commandId :: p.payload := by
  rw [← lowByte_ofNat, ← highByte_ofNat]
  rfl

@[simp] theorem length_packetFrame (width : Width) (p : Packet) :
    (packetFrame width p).length = p.payload.length + width.bytes + 4 := by
  simp [packetFrame, packetBody]

/-! The two statements. -/

/-- Settles O9: the two written-out bodies are those of the Packet's frame, which ENCODE answers for a payload that fits. -/
theorem encodeAnswersFrame : Obligations.EncodeAnswersFrame := by
  intro p s header len0 len1 body1 body2 hidle hheader hlen0 hlen1 hbody1 hbody2
  have hpacket1 : body1 = packetBody .w1 p := by
    rw [hbody1, hheader, hlen0, packetBody_w1]
    rfl
  have hpacket2 : body2 = packetBody .w2 p := by
    rw [hbody2, hheader, hlen0, hlen1, packetBody_w2]
    rfl
  subst hpacket1 hpacket2
  exact ⟨fun hfit => ⟨exec_encodeInstr_of_fits .w1 p hidle hfit, length_packetFrame .w1 p⟩,
    fun hfit => ⟨exec_encodeInstr_of_fits .w2 p hidle hfit, length_packetFrame .w2 p⟩⟩

/-- Settles O10: an answered frame is that of a Packet that fits, so its LENGTH bytes hold the payload's length. -/
theorem encodeFrameTooLarge : Obligations.EncodeFrameTooLarge := by
  rintro p s n bound1 bound2 hidle rfl rfl rfl
  refine ⟨exec_encodeInstr_eq_frameTooLarge_iff .w1 p hidle, add_two_gt_lengthMax_iff .w1 _,
    exec_encodeInstr_eq_frameTooLarge_iff .w2 p hidle, add_two_gt_lengthMax_iff .w2 _, ?lengthW1, ?lengthW2⟩
  case lengthW1 =>
    intro t f hexec hlog
    obtain ⟨hfit, rfl⟩ := fits_of_exec_encodeInstr_answers_frame .w1 p hidle hexec hlog
    have hlength := toNat_lengthByte_w1 (hfit.trans (encMaxPayload_le_decMaxPayload .w1))
    exact ⟨_, rfl, hlength.trans_le hfit⟩
  case lengthW2 =>
    intro t f hexec hlog
    obtain ⟨hfit, rfl⟩ := fits_of_exec_encodeInstr_answers_frame .w2 p hidle hexec hlog
    have hlength := toNat_lengthBytes_w2 (hfit.trans (encMaxPayload_le_decMaxPayload .w2))
    exact ⟨_, _, rfl, rfl, hlength.trans_le hfit⟩

end Sys2Proof.Machine
end

section
/-! PROOFS. The payload buffer: what is read after a write (spec 10 R26) and after a run of writes at rising indexes. -/

namespace Sys2Proof.Machine

open Sys2Proof

/-! Reading after one write. -/

/-- Below the first index that may be listed, every index reads as unlisted. -/
theorem Memory.read_of_lt {m : Memory} {lo a : Nat} (hm : Memory.risesFrom lo m = true) (h : a < lo) :
    Memory.read m a = Memory.unlisted := by
  cases m with
  | nil => rfl
  | cons c rest =>
    obtain ⟨k, d⟩ := c
    simp only [Memory.risesFrom, Bool.and_eq_true, decide_eq_true_eq] at hm
    simp [Memory.read, show a ≠ k by omega, show a < k by omega]

/-- An entry put in front of indexes above it: it is read at its own index, and the rest is read as before. -/
theorem Memory.read_cons {rest : Memory} {a : Nat} (b : Byte) (hr : Memory.risesFrom (a + 1) rest = true) (a' : Nat) :
    Memory.read (Memory.cons a b rest) a' = if a' = a then b else Memory.read rest a' := by
  have hbelow (h : a' < a + 1) : Memory.read rest a' = Memory.unlisted := Memory.read_of_lt hr h
  unfold Memory.cons
  split
  · next hb =>
    split
    · rw [hbelow (by omega), hb]
    · rfl
  · simp only [Memory.read]
    split
    · rfl
    · split
      · rw [hbelow (by omega)]
      · rfl

theorem Memory.read_write_of_rises {m : Memory} {lo : Nat} (hm : Memory.risesFrom lo m = true) (a : Nat) (b : Byte)
    (a' : Nat) : Memory.read (Memory.write m a b) a' = if a' = a then b else Memory.read m a' := by
  induction m generalizing lo with
  | nil => exact Memory.read_cons b rfl a'
  | cons c rest ih =>
    obtain ⟨k, d⟩ := c
    simp only [Memory.risesFrom, Bool.and_eq_true, decide_eq_true_eq] at hm
    obtain ⟨⟨-, hd⟩, hrest⟩ := hm
    simp only [Memory.write]
    split
    · next hlt =>
      refine Memory.read_cons b ?_ a'
      simp only [Memory.risesFrom, Bool.and_eq_true, decide_eq_true_eq]
      exact ⟨⟨by omega, hd⟩, hrest⟩
    · split
      · next heq =>
        subst heq
        rw [Memory.read_cons b hrest a', Memory.read]
        split
        · rfl
        · split
          · rw [Memory.read_of_lt hrest (by omega)]
          · rfl
      · next hge hne =>
        simp only [Memory.read, ih hrest]
        split
        · rw [if_neg (by omega)]
        · split
          · rw [if_neg (by omega)]
          · rfl

/-- The byte written is read at its index, and every other index reads what it read before. -/
theorem Memory.read_write {m : Memory} (hm : m.wf = true) (a : Nat) (b : Byte) (a' : Nat) :
    Memory.read (Memory.write m a b) a' = if a' = a then b else Memory.read m a' :=
  Memory.read_write_of_rises hm a b a'

/-! A run of writes. -/

/-- The payload buffer after the payload steps that store `bytes` from index `a` up (spec 42 R132, row D_PAY). -/
def Memory.writes : Memory → Nat → List Byte → Memory
  | m, _, [] => m
  | m, a, b :: rest => Memory.writes (Memory.write m a b) (a + 1) rest

theorem Memory.wf_writes {m : Memory} (hm : m.wf = true) (a : Nat) (bytes : List Byte) :
    (Memory.writes m a bytes).wf = true := by
  induction bytes generalizing m a with
  | nil => exact hm
  | cons b rest ih => exact ih (Memory.wf_write a b hm) (a + 1)

theorem Memory.read_writes_of_lt {m : Memory} (hm : m.wf = true) {a a' : Nat} (h : a' < a) (bytes : List Byte) :
    Memory.read (Memory.writes m a bytes) a' = Memory.read m a' := by
  induction bytes generalizing m a with
  | nil => rfl
  | cons b rest ih =>
    rw [Memory.writes, ih (Memory.wf_write a b hm) (by omega), Memory.read_write hm, if_neg (by omega)]

/-- What was written from an index up is what a slice from that index holds. -/
theorem Memory.slice_writes {m : Memory} (hm : m.wf = true) (a : Nat) (bytes : List Byte) :
    Memory.slice (Memory.writes m a bytes) a bytes.length = bytes := by
  induction bytes generalizing m a with
  | nil => rfl
  | cons b rest ih =>
    have hm' := Memory.wf_write a b hm
    rw [List.length_cons, Memory.slice, Memory.writes, Memory.read_writes_of_lt hm' (Nat.lt_succ_self a),
      Memory.read_write hm, if_pos rfl, ih hm' (a + 1)]

/-- A slice from index 0, written with the library's functions. -/
theorem Memory.slice_zero_eq_map_range (m : Memory) (n : Nat) :
    Memory.slice m 0 n = (List.range n).map (Memory.read m) := by
  refine List.ext_getElem? fun i => ?_
  rw [Memory.getElem?_slice, Nat.zero_add, List.getElem?_map]
  by_cases h : i < n <;> simp [h]

end Sys2Proof.Machine
end

section
/-! PROOFS. DECODE as single steps of the block: acceptance (spec 42 R131), the byte step row by row (R132) and the terminal
step (R133). -/

namespace Sys2Proof.Machine

open Sys2Proof

/-! Acceptance. -/

theorem exec_decodeInstr_of_idle (width : Width) {s : State} (h : s.phase = .idle) :
    exec (decodeInstr width) s = .next (s.startDecode width) := by
  cases width with
  | w1 => exact whenIdle_of_idle _ _ h
  | w2 => exact whenIdle_of_idle _ _ h

/-- Settles O14: an idle block accepts DECODE at either width alike. -/
theorem decodeAccepted : Obligations.DecodeAccepted :=
  fun _ hidle => ⟨exec_decodeInstr_of_idle .w1 hidle, exec_decodeInstr_of_idle .w2 hidle⟩

/-! The byte step: one lemma per row, for the state from whose stream the byte is already removed. -/

section Rows

variable {s : State} (b : Byte)

theorem byteStep_dSof_of_sof (h : s.phase = .dSof) :
    byteStep Config.sof s = .next { s with acc := Config.fcsSeed, phase := .dLen0 } := by
  simp [byteStep, h, stepSof]

theorem byteStep_dSof_of_ne (h : s.phase = .dSof) (hb : b ≠ Config.sof) :
    byteStep b s = .next (s.raise .framingError) := by
  simp [byteStep, h, stepSof, hb]

theorem byteStep_dLen0 (h : s.phase = .dLen0) :
    byteStep b s =
      .next { s with L := zext16 b, acc := s.acc ^^^ b, phase := if s.w = .w2 then .dLen1 else .dHdr } := by
  simp [byteStep, h, stepLen0, State.absorb]

theorem byteStep_dLen1 (h : s.phase = .dLen1) :
    byteStep b s = .next { s with L := s.L ||| (zext16 b <<< 8), acc := s.acc ^^^ b, phase := .dHdr } := by
  simp [byteStep, h, stepLen1, State.absorb]

theorem byteStep_dHdr (h : s.phase = .dHdr) :
    byteStep b s = .next { s with hdr := b, acc := s.acc ^^^ b, phase := .dCmd } := by
  simp [byteStep, h, stepHdr, State.absorb]

theorem byteStep_dCmd (h : s.phase = .dCmd) :
    byteStep b s =
      .next { s with cmd := b, acc := s.acc ^^^ b, idx := 0, phase := if s.L = 0 then .dFcs else .dPay } := by
  simp [byteStep, h, stepCmd, State.absorb]

theorem byteStep_dPay (h : s.phase = .dPay) (hidx : s.idx.toNat < Config.pbufBytes) :
    byteStep b s =
      .next { s with
        pbuf := Memory.write s.pbuf s.idx.toNat b
        acc := s.acc ^^^ b
        idx := s.idx + 1
        phase := if s.idx + 1 = s.L then .dFcs else .dPay } := by
  have hstep : byteStep b s = stepPay b s := by simp [byteStep, h]
  rcases stepPay_cases b s with ⟨-, hpay⟩ | ⟨hout, -⟩
  · rw [hstep, hpay]
    rfl
  · exact absurd hidx hout

theorem byteStep_dFcs_of_ne (h : s.phase = .dFcs) (hb : b ≠ s.acc) :
    byteStep b s = .next (s.raise .checksumError) := by
  simp [byteStep, h, stepFcs, hb]

theorem byteStep_dFcs_of_eq (h : s.phase = .dFcs) (hb : b = s.acc) :
    byteStep b s = .next (s.respond (Response.okPacket (packetOf s.hdr s.cmd s.received))) := by
  simp [byteStep, h, stepFcs, hb]

end Rows

/-! The block's step while a DECODE is in progress. -/

/-- With a byte at the front of the stream, the block's step is the byte step on it. -/
theorem blockStep_of_byte {s : State} {b : Byte} {rest : List Byte} (hport : s.portBlocked = true)
    (hbusy : s.phase ≠ .idle) (hrx : s.rx.bytes = b :: rest) :
    blockStep s = byteStep b { s with rx := ⟨rest, s.rx.term⟩ } := by
  have htake : s.takeByte = { s with rx := ⟨rest, s.rx.term⟩ } := by simp [State.takeByte, hrx]
  rw [blockStep_of_blocked hport, ← htake]
  simp [decoderStep, hbusy, hrx]

/-- The code with which a read on an empty stream ends (spec 42 R133, 43 R151): none on an open one, where it waits. -/
def RxTerm.endCode : RxTerm → Option ResultCode
  | .opened => none
  | .closed => some .endOfStream
  | .errored => some .ioError

theorem terminalStep_of_endCode {s : State} {code : ResultCode} (h : s.rx.term.endCode = some code) :
    terminalStep s = s.raise code := by
  unfold terminalStep
  cases hterm : s.rx.term <;> rw [hterm] at h <;> cases h <;> rfl

/-- On an empty stream that is not open, the block's step ends the DECODE. -/
theorem blockStep_of_exhausted {s : State} {code : ResultCode} (hport : s.portBlocked = true)
    (hbusy : s.phase ≠ .idle) (hrx : s.rx.bytes = []) (hcode : s.rx.term.endCode = some code) :
    blockStep s = .next (s.raise code) := by
  rw [blockStep_of_blocked hport, ← terminalStep_of_endCode hcode]
  simp [decoderStep, hbusy, hrx]

/-! The two statements. -/

/-- Settles O15: the block's step is the byte step, whose rows stand above. -/
theorem decoderByteStep : Obligations.DecoderByteStep := by
  rintro s _ b rest hport hrx rfl
  have hbyte {ph : Phase} (h : s.phase = ph) (hph : ph ≠ .idle) :
      blockStep s = byteStep b { s with rx := ⟨rest, s.rx.term⟩ } := blockStep_of_byte hport (h ▸ hph) hrx
  refine ⟨fun h hb => ?framing, fun h hb => ?sof, fun h => ?len0, fun h => ?len1, fun h => ?hdr, fun h => ?cmd,
    fun h hidx => ?pay, fun h hb => ?checksum, fun h hb => ?ok⟩
  case framing => exact (hbyte h nofun).trans (byteStep_dSof_of_ne b h hb)
  case sof => exact (hbyte h nofun).trans (hb ▸ byteStep_dSof_of_sof h)
  case len0 => exact (hbyte h nofun).trans (byteStep_dLen0 b h)
  case len1 => exact (hbyte h nofun).trans (byteStep_dLen1 b h)
  case hdr => exact (hbyte h nofun).trans (byteStep_dHdr b h)
  case cmd => exact (hbyte h nofun).trans (byteStep_dCmd b h)
  case pay => exact (hbyte h nofun).trans (byteStep_dPay b h hidx)
  case checksum => exact (hbyte h nofun).trans (byteStep_dFcs_of_ne b h hb)
  case ok =>
    rw [← Memory.slice_zero_eq_map_range]
    exact (hbyte h nofun).trans (byteStep_dFcs_of_eq b h hb)

/-- Settles O18: the two conditions under which an empty stream has a code to end with. -/
theorem decoderTerminalStep : Obligations.DecoderTerminalStep := by
  intro s hport hbusy hrx
  exact ⟨fun hclosed => blockStep_of_exhausted hport hbusy hrx (congrArg RxTerm.endCode hclosed),
    fun herrored => blockStep_of_exhausted hport hbusy hrx (congrArg RxTerm.endCode herrored)⟩

end Sys2Proof.Machine
end

section
/-! PROOFS. DECODE as runs of a block left to itself: the parts of a frame, each from the phase that waits for it (spec 42
R132), the whole frame, and a first byte that is not SOF (R121). -/

namespace Sys2Proof.Machine

open Sys2Proof

/-! A block left to itself. -/

/-- The block runs by itself: no move is scheduled, and no command waits that a busy block accepts. -/
abbrev State.Unattended (s : State) : Prop := s.schedule = [] ∧ s.PortInv

theorem portBlocked_of_busy {s : State} (hport : s.PortInv) (hbusy : s.phase ≠ .idle) : s.portBlocked = true := by
  unfold State.portBlocked
  split
  · rfl
  · next c rest hp =>
    have hc : Command.isAbort c = false := hport c (hp ▸ List.mem_cons_self)
    simp [State.accepts, hc, hbusy]

/-- While a DECODE is in progress, a step on a byte is the byte step. -/
theorem step_of_byte {s : State} {b : Byte} {rest : List Byte} (hrun : s.Unattended) (hbusy : s.phase ≠ .idle)
    (hrx : s.rx.bytes = b :: rest) : step s = byteStep b { s with rx := ⟨rest, s.rx.term⟩ } := by
  obtain ⟨hschedule, hport⟩ := hrun
  rw [step_of_no_schedule hschedule, blockStep_of_byte (portBlocked_of_busy hport hbusy) hbusy hrx]

/-- While a DECODE is in progress, a step on an empty stream that is not open ends it. -/
theorem step_of_exhausted {s : State} {code : ResultCode} (hrun : s.Unattended) (hbusy : s.phase ≠ .idle)
    (hrx : s.rx.bytes = []) (hcode : s.rx.term.endCode = some code) : step s = .next (s.raise code) := by
  obtain ⟨hschedule, hport⟩ := hrun
  rw [step_of_no_schedule hschedule, blockStep_of_exhausted (portBlocked_of_busy hport hbusy) hbusy hrx hcode]

/-- A run that starts with the byte step on `b`. -/
theorem runSteps_succ_of_byte {s t : State} {b : Byte} {rest : List Byte} (n : Nat) (hrun : s.Unattended)
    (hbusy : s.phase ≠ .idle) (hrx : s.rx.bytes = b :: rest)
    (hstep : byteStep b { s with rx := ⟨rest, s.rx.term⟩ } = .next t) : runSteps (n + 1) s = runSteps n t :=
  runSteps_succ_of_next n ((step_of_byte hrun hbusy hrx).trans hstep)

theorem runSteps_trans {s t u : State} {m n : Nat} (hfirst : runSteps m s = .next t) (hthen : runSteps n t = .next u) :
    runSteps (m + n) s = .next u :=
  (runSteps_add m n hfirst).trans hthen

/-! The parts of a frame, each from the phase that waits for its first byte. -/

theorem runSteps_length {s : State} {lenb rest : List Byte} (hrun : s.Unattended) (hphase : s.phase = .dLen0)
    (hlenb : lenb.length = s.w.bytes) (hrx : s.rx.bytes = lenb ++ rest) :
    runSteps s.w.bytes s =
      .next { s with L := fromLe lenb, acc := foldXor s.acc lenb, phase := .dHdr, rx := ⟨rest, s.rx.term⟩ } := by
  have hbusy : s.phase ≠ .idle := by simp [hphase]
  cases hw : s.w with
  | w1 =>
    obtain ⟨l0, rfl⟩ : ∃ l0, lenb = [l0] := List.length_eq_one_iff.mp (by rw [hlenb, hw, Width.bytes])
    refine (runSteps_succ_of_byte 0 hrun hbusy hrx (byteStep_dLen0 l0 hphase)).trans ?_
    simp [runSteps_zero, hw, fromLe, foldXor]
  | w2 =>
    obtain ⟨l0, l1, rfl⟩ : ∃ l0 l1, lenb = [l0, l1] := List.length_eq_two.mp (by rw [hlenb, hw, Width.bytes])
    refine (runSteps_succ_of_byte 1 hrun hbusy hrx (byteStep_dLen0 l0 hphase)).trans
      ((runSteps_succ_of_byte 0 (by exact hrun) (by simp [hw]) rfl (byteStep_dLen1 l1 (by simp [hw]))).trans ?_)
    simp [runSteps_zero, hw, fromLe, foldXor]

/-- HEADER and COMMAND. Where LENGTH is 0 the payload is complete at once. -/
theorem runSteps_headerCommand {s : State} {header command : Byte} {rest : List Byte} (hrun : s.Unattended)
    (hphase : s.phase = .dHdr) (hrx : s.rx.bytes = header :: command :: rest) :
    runSteps 2 s =
      .next { s with
        hdr := header
        cmd := command
        acc := foldXor s.acc [header, command]
        idx := 0
        phase := if 0 = s.L then .dFcs else .dPay
        rx := ⟨rest, s.rx.term⟩ } := by
  have hbusy : s.phase ≠ .idle := by simp [hphase]
  refine (runSteps_succ_of_byte 1 hrun hbusy hrx (byteStep_dHdr header hphase)).trans
    ((runSteps_succ_of_byte 0 (by exact hrun) (by simp) rfl (byteStep_dCmd command rfl)).trans ?_)
  simp only [runSteps_zero, foldXor, @eq_comm _ s.L 0]

/-- The payload bytes still to come. In D_PAY there is one; in D_FCS there is none. -/
theorem runSteps_payload {s : State} {payload rest : List Byte} (hrun : s.Unattended)
    (hphase : s.phase = if s.idx = s.L then .dFcs else .dPay)
    (hlen : s.idx.toNat + payload.length = s.L.toNat) (hrx : s.rx.bytes = payload ++ rest) :
    runSteps payload.length s =
      .next { s with
        pbuf := Memory.writes s.pbuf s.idx.toNat payload
        acc := foldXor s.acc payload
        idx := s.L
        phase := .dFcs
        rx := ⟨rest, s.rx.term⟩ } := by
  induction payload generalizing s with
  | nil =>
    have hidx : s.idx = s.L := BitVec.eq_of_toNat_eq hlen
    rw [if_pos hidx] at hphase
    obtain rfl : s.rx.bytes = rest := hrx
    cases s
    simp_all [runSteps_zero, Memory.writes, foldXor]
  | cons b payload ih =>
    rw [List.length_cons] at hlen
    have hlt : s.idx.toNat + 1 < 2 ^ 16 := by have := s.L.isLt; omega
    have hne : s.idx ≠ s.L := by intro h; rw [h] at hlen; omega
    have hnext : (s.idx + 1).toNat = s.idx.toNat + 1 := by
      rw [BitVec.toNat_add]
      exact Nat.mod_eq_of_lt hlt
    rw [if_neg hne] at hphase
    have hidx : s.idx.toNat < Config.pbufBytes := by unfold Config.pbufBytes; omega
    refine (runSteps_succ_of_byte _ hrun (by simp [hphase]) hrx (byteStep_dPay b hphase hidx)).trans
      ((ih (by exact hrun) rfl (by simp only [hnext]; omega) rfl).trans ?_)
    simp only [hnext, Memory.writes, foldXor]

/-- The FCS byte: the answer turns on whether it is the checksum of what was read. -/
theorem runSteps_fcs {s : State} {c : Byte} {rest : List Byte} (hrun : s.Unattended) (hphase : s.phase = .dFcs)
    (hrx : s.rx.bytes = c :: rest) :
    runSteps 1 s =
      .next ({ s with rx := ⟨rest, s.rx.term⟩ }.respond
        (if s.acc ≠ c then Response.error .checksumError
          else Response.okPacket (packetOf s.hdr s.cmd s.received))) := by
  have hbusy : s.phase ≠ .idle := by simp [hphase]
  by_cases hc : s.acc = c
  · rw [if_neg (not_not.mpr hc)]
    exact runSteps_succ_of_byte 0 hrun hbusy hrx (byteStep_dFcs_of_eq c hphase hc.symm)
  · rw [if_pos hc]
    exact runSteps_succ_of_byte 0 hrun hbusy hrx (byteStep_dFcs_of_ne c hphase (Ne.symm hc))

/-! The whole frame. -/

/-- The state in which a DECODE ends that read a whole frame with LENGTH bytes `lenb`, HEADER, COMMAND and payload `body`
and FCS byte `c`, and left `rest` in the stream. -/
def State.afterFrame (lenb body : List Byte) (c : Byte) (rest : List Byte) (s : State) : State :=
  { s with
    phase := .idle
    L := fromLe lenb
    acc := fcs (lenb ++ body)
    hdr := body.getD 0 0
    cmd := body.getD 1 0
    idx := fromLe lenb
    pbuf := Memory.writes s.pbuf 0 (body.drop 2)
    rx := ⟨rest, s.rx.term⟩
    log := s.log ++ [answerOf lenb body c] }

/-- From D_SOF, the decoder reads a whole frame and answers what the algorithm of spec 42 R120 answers on it. -/
theorem runSteps_frame {s : State} {lenb body : List Byte} {c : Byte} {rest : List Byte} (hrun : s.Unattended)
    (hpbuf : s.pbuf.wf = true) (hphase : s.phase = .dSof) (hlenb : lenb.length = s.w.bytes)
    (hbody : body.length = (fromLe lenb).toNat + Config.cmdBytes)
    (hrx : s.rx.bytes = Config.sof :: (lenb ++ body ++ c :: rest)) :
    runSteps (1 + s.w.bytes + body.length + 1) s = .next (s.afterFrame lenb body c rest) := by
  obtain ⟨header, command, payload, rfl⟩ : ∃ header command payload, body = header :: command :: payload := by
    match body, hbody with
    | header :: command :: payload, _ => exact ⟨header, command, payload, rfl⟩
  have hlen : payload.length = (fromLe lenb).toNat := by simpa [Config.cmdBytes] using hbody
  have hbusy : s.phase ≠ .idle := by simp [hphase]
  have hsof := runSteps_succ_of_byte 0 hrun hbusy hrx (byteStep_dSof_of_sof hphase)
  have hreads := runSteps_trans (runSteps_trans (runSteps_trans hsof
      (runSteps_length (by exact hrun) rfl hlenb (List.append_assoc _ _ _)))
    (runSteps_headerCommand (by exact hrun) rfl rfl))
    (runSteps_payload (by exact hrun) rfl (by simpa using hlen) rfl)
  have hanswer := runSteps_trans hreads (runSteps_fcs (by exact hrun) rfl rfl)
  have hacc : foldXor (foldXor (foldXor Config.fcsSeed lenb) [header, command]) payload =
      fcs (lenb ++ header :: command :: payload) := by
    rw [← foldXor_append, ← foldXor_append]
    rfl
  have hpayload : Memory.slice (Memory.writes s.pbuf (0 : Half).toNat payload) 0 (fromLe lenb).toNat = payload := by
    rw [← hlen]
    exact Memory.slice_writes hpbuf 0 payload
  have hcount : 1 + s.w.bytes + (header :: command :: payload).length + 1 =
      0 + 1 + s.w.bytes + 2 + payload.length + 1 := by simp only [List.length_cons]; omega
  rw [hcount, hanswer]
  simp only [hacc, State.received, hpayload]
  rfl

/-! DECODE issued to an idle block (spec 42 R131). -/

theorem decode_decodeCommand (width : Width) : decode (decodeCommand width) = decodeInstr width := by
  cases width <;> rfl

theorem isAbort_decodeCommand (width : Width) : Command.isAbort (decodeCommand width) = false := by
  cases width <;> rfl

theorem step_of_readyToDecode {s : State} {width : Width} (h : s.readyToDecode width) :
    step s = .next ({ s with schedule := [] }.startDecode width) := by
  obtain ⟨hidle, hport, -, hschedule⟩ := h
  have hexec : exec (decodeInstr width) { s with schedule := [] } = .next ({ s with schedule := [] }.startDecode width) :=
    exec_decodeInstr_of_idle width hidle
  rw [step_of_schedule hschedule, ← hexec]
  simp [runMove, issue, isAbort_decodeCommand, decode_decodeCommand, hidle, hport]

/-- A block left to itself after the issue of a DECODE runs unattended. -/
theorem unattended_of_readyToDecode {s : State} {width : Width} (h : s.readyToDecode width) :
    ({ s with schedule := [] }.startDecode width).Unattended := by
  obtain ⟨-, hport, -, -⟩ := h
  exact ⟨rfl, fun c hc => absurd (hport ▸ hc) List.not_mem_nil⟩

/-- A DECODE issued where a whole frame stands at the front of the stream. -/
theorem runSteps_ready_frame {s : State} {width : Width} {lenb body : List Byte} {c : Byte} {rest : List Byte}
    (hready : s.readyToDecode width) (hlenb : lenb.length = width.bytes)
    (hbody : body.length = (fromLe lenb).toNat + Config.cmdBytes)
    (hrx : s.rx.bytes = Config.sof :: (lenb ++ body ++ c :: rest)) :
    ∃ t, runSteps (width.bytes + body.length + 3) s = .next t ∧ t.phase = .idle ∧
      t.log = s.log ++ [answerOf lenb body c] ∧ t.rx = ⟨rest, s.rx.term⟩ := by
  have hrun := unattended_of_readyToDecode hready
  obtain ⟨-, -, hpbuf, -⟩ := id hready
  have hframe := runSteps_frame hrun hpbuf rfl hlenb hbody hrx
  have hcount : width.bytes + body.length + 3 = 1 + width.bytes + body.length + 1 + 1 := by omega
  rw [hcount]
  exact ⟨_, (runSteps_succ_of_next _ (step_of_readyToDecode hready)).trans hframe, rfl, rfl, rfl⟩

/-- A DECODE issued where the first byte of the stream is not SOF (spec 42 R121). -/
theorem runSteps_ready_not_sof {s : State} {width : Width} {b : Byte} {rest : List Byte}
    (hready : s.readyToDecode width) (hb : b ≠ Config.sof) (hrx : s.rx.bytes = b :: rest) :
    ∃ t, runSteps 2 s = .next t ∧ t.phase = .idle ∧ t.log = s.log ++ [Response.error .framingError] ∧
      t.rx = ⟨rest, s.rx.term⟩ := by
  have hrun := unattended_of_readyToDecode hready
  have hsof := runSteps_succ_of_byte 0 hrun nofun hrx (byteStep_dSof_of_ne b rfl hb)
  exact ⟨_, (runSteps_succ_of_next 1 (step_of_readyToDecode hready)).trans hsof, rfl, rfl, rfl⟩

end Sys2Proof.Machine
end

section
/-! PROOFS. The bytes a DECODE finds: LENGTH as a number (spec 20 R43), the answer to a whole frame (42 R124, R125), and a
frame with one bit flipped (42 R138). -/

namespace Sys2Proof.Machine

open Sys2Proof

/-! LENGTH bytes. -/

theorem fromLe_one (a : Byte) : fromLe [a] = zext16 a := by simp [fromLe]

theorem toNat_fromLe_one (a : Byte) : (fromLe [a]).toNat = a.toNat := by
  have := a.isLt
  rw [fromLe_one, zext16, BitVec.toNat_setWidth]
  omega

theorem toNat_fromLe_two (a b : Byte) : (fromLe [a, b]).toNat = a.toNat + 256 * b.toNat := by
  have ha := a.isLt
  have hb := b.isLt
  have hor : a.toNat ||| b.toNat <<< 8 = b.toNat <<< 8 + a.toNat := by
    rw [Nat.or_comm, Nat.shiftLeft_add_eq_or_of_lt ha]
  rw [fromLe, fromLe_one, zext16, zext16, BitVec.toNat_or, BitVec.toNat_shiftLeft, BitVec.toNat_setWidth,
    BitVec.toNat_setWidth, Nat.mod_eq_of_lt (by omega : a.toNat < 2 ^ 16), Nat.mod_eq_of_lt (by omega : b.toNat < 2 ^ 16),
    Nat.mod_eq_of_lt (by rw [Nat.shiftLeft_eq]; omega), hor, Nat.shiftLeft_eq]
  omega

/-- The LENGTH bytes that ENCODE writes are read back as the count, up to the most that the field can hold. -/
theorem toNat_fromLe_leBytes {width : Width} {n : Nat} (h : n ≤ decMaxPayload width) :
    (fromLe (leBytes width (BitVec.ofNat 16 n))).toNat = n := by
  cases width with
  | w1 => exact (toNat_fromLe_one _).trans (toNat_lengthByte_w1 h)
  | w2 => exact (toNat_fromLe_two _ _).trans (toNat_lengthBytes_w2 h)

theorem fromLe_leBytes {width : Width} {n : Nat} (h : n ≤ decMaxPayload width) :
    fromLe (leBytes width (BitVec.ofNat 16 n)) = BitVec.ofNat 16 n := by
  have hself (v : Half) : v = BitVec.ofNat 16 v.toNat := by simp
  rw [hself (fromLe _), toNat_fromLe_leBytes h]

/-- Different LENGTH bytes of one width are different numbers. -/
theorem fromLe_injective {width : Width} {l l' : List Byte} (hl : l.length = width.bytes) (hl' : l'.length = width.bytes)
    (h : fromLe l = fromLe l') : l = l' := by
  have hnat : (fromLe l).toNat = (fromLe l').toNat := congrArg _ h
  cases width with
  | w1 =>
    obtain ⟨a, rfl⟩ := List.length_eq_one_iff.mp hl
    obtain ⟨a', rfl⟩ := List.length_eq_one_iff.mp hl'
    rw [toNat_fromLe_one, toNat_fromLe_one] at hnat
    rw [BitVec.eq_of_toNat_eq hnat]
  | w2 =>
    obtain ⟨a, b, rfl⟩ := List.length_eq_two.mp hl
    obtain ⟨a', b', rfl⟩ := List.length_eq_two.mp hl'
    rw [toNat_fromLe_two, toNat_fromLe_two] at hnat
    have ha := a.isLt
    have ha' := a'.isLt
    rw [BitVec.eq_of_toNat_eq (show a.toNat = a'.toNat by omega), BitVec.eq_of_toNat_eq (show b.toNat = b'.toNat by omega)]

/-! A whole frame as the decoder divides it, and the answer to it. -/

/-- The frame around a body with its LENGTH bytes apart. -/
theorem frameAround_frameBody (width : Width) (len : Half) (header command : Byte) (payload : List Byte) :
    frameAround (frameBody width len header command payload) =
      Config.sof :: (leBytes width len ++ (header :: command :: payload) ++
        [fcs (leBytes width len ++ header :: command :: payload)]) := by
  simp [frameAround, frameBody]

/-- Where LENGTH, HEADER, COMMAND, payload and FCS do not fold to zero, the checksum fails (spec 40 R84 item 3). -/
theorem answerOf_eq_checksumError {lenb body : List Byte} {c : Byte}
    (h : foldXor Config.fcsSeed (lenb ++ body ++ [c]) ≠ 0x00#8) :
    answerOf lenb body c = Response.error .checksumError := by
  refine if_pos fun hc => h ?_
  calc foldXor Config.fcsSeed (lenb ++ body ++ [c]) = fcs (lenb ++ body) ^^^ c := foldXor_append _ _ _
    _ = 0x00#8 := by rw [hc, BitVec.xor_self]

theorem answerOf_fcs (lenb : List Byte) (header command : Byte) (payload : List Byte) :
    answerOf lenb (header :: command :: payload) (fcs (lenb ++ header :: command :: payload)) =
      Response.okPacket (packetOf header command payload) :=
  if_neg (not_not.mpr rfl)

/-- HDR_UNPACK gives the fields of a Packet in place back. -/
theorem packetOf_hdrPack {p : Packet} (h : inPlace p = true) :
    packetOf (hdrPack p.messageType p.subSystem) p.commandId p.payload = p := by
  simp only [inPlace, Bool.and_eq_true, beq_iff_eq] at h
  obtain ⟨hmt, hss⟩ := (hdrUnpack_hdrPack_eq_self_iff p.messageType p.subSystem).mpr h
  rw [packetOf, hmt, hss]

theorem packetWF_iff (p : Packet) (width : Width) :
    packetWF p width = true ↔ inPlace p = true ∧ p.payload.length ≤ encMaxPayload width := by
  simp [packetWF]

/-! One bit flipped. -/

theorem flipBit_cons_zero (b : Byte) (l : List Byte) (k : Nat) : flipBit (b :: l) 0 k = (b ^^^ (1#8 <<< k)) :: l := rfl

theorem flipBit_cons_succ (b : Byte) (l : List Byte) (i k : Nat) : flipBit (b :: l) (i + 1) k = b :: flipBit l i k := rfl

@[simp] theorem length_flipBit (l : List Byte) (i k : Nat) : (flipBit l i k).length = l.length := by simp [flipBit]

theorem flipBit_append_left {a : List Byte} {i : Nat} (h : i < a.length) (b : List Byte) (k : Nat) :
    flipBit (a ++ b) i k = flipBit a i k ++ b := by
  simp [flipBit, List.set_append_left _ _ h, List.getElem?_append_left h]

theorem flipBit_append_right (a b : List Byte) (i k : Nat) : flipBit (a ++ b) (a.length + i) k = a ++ flipBit b i k := by
  simp [flipBit, List.set_append_right, List.getElem?_append_right]

theorem one_shiftLeft_ne_zero {k : Nat} (hk : k < 8) : 1#8 <<< k ≠ 0x00#8 := by
  revert k
  decide

/-- Flipping one bit of one byte flips that bit of the fold. -/
theorem foldXor_flipBit (seed : Byte) {l : List Byte} {i : Nat} (h : i < l.length) (k : Nat) :
    foldXor seed (flipBit l i k) = foldXor seed l ^^^ (1#8 <<< k) := by
  induction l generalizing seed i with
  | nil => exact absurd h (Nat.not_lt_zero i)
  | cons b l ih =>
    cases i with
    | zero =>
      rw [flipBit_cons_zero, foldXor, foldXor, foldXor_eq_xor_foldXor_zero, foldXor_eq_xor_foldXor_zero (seed ^^^ b)]
      ac_rfl
    | succ i => exact ih (seed ^^^ b) (Nat.lt_of_succ_lt_succ h)

theorem foldXor_flipBit_ne (seed : Byte) {l : List Byte} {i k : Nat} (h : i < l.length) (hk : k < 8) :
    foldXor seed (flipBit l i k) ≠ foldXor seed l := by
  rw [foldXor_flipBit seed h]
  intro heq
  exact one_shiftLeft_ne_zero hk (by simpa using heq)

theorem flipBit_ne {l : List Byte} {i k : Nat} (h : i < l.length) (hk : k < 8) : flipBit l i k ≠ l :=
  fun heq => foldXor_flipBit_ne 0x00#8 h hk (congrArg _ heq)

end Sys2Proof.Machine
end

section
/-! PROOFS. DECODE as the sequential algorithm of spec 42 R120: what an exact read comes to whatever the chunk sizes are
(43 R150 to R154), the whole frame, the frame cut short, and the lengths accepted (42 R129). -/

namespace Sys2Proof.Machine

open Sys2Proof

/-! The exact reader. -/

/-- What an exact read comes to that finds too few bytes: all of them are consumed, and the stream's condition decides. -/
def ExactRead.onExhausted (term : RxTerm) : ExactRead :=
  match term.endCode with
  | some code => .failed code ⟨[], term⟩
  | none => .waits ⟨[], term⟩

/-- A transport read on a stream that has bytes takes the first one and perhaps more, never more than asked for. -/
theorem readSome_cons (k : Nat) {m : Nat} (hm : 0 < m) (b : Byte) (rest : List Byte) (term : RxTerm) :
    ∃ j, j < m ∧ j ≤ rest.length ∧
      readSome k m ⟨b :: rest, term⟩ = .bytes (b :: rest.take j) ⟨rest.drop j, term⟩ := by
  obtain ⟨j, hj⟩ : ∃ j, chunk k m (b :: rest).length = j + 1 :=
    Nat.exists_eq_succ_of_ne_zero (by rw [chunk]; omega)
  have hchunk : j + 1 ≤ min m (rest.length + 1) := by
    rw [← hj, List.length_cons, chunk]
    omega
  exact ⟨j, by omega, by omega, by simp only [readSome, hj, List.take_succ_cons, List.drop_succ_cons]⟩

theorem readExactLoop_zero (draw : Nat → Nat) (fuel : Nat) (got : List Byte) (rx : RxStream) :
    readExactLoop draw fuel 0 got rx = .done got rx := by
  cases fuel <;> rfl

theorem readExactLoop_nil (draw : Nat → Nat) (fuel need : Nat) (got : List Byte) (term : RxTerm) :
    readExactLoop draw (fuel + 1) (need + 1) got ⟨[], term⟩ = ExactRead.onExhausted term := by
  cases term <;> rfl

/-- Every round gathers a byte, so `need` rounds are enough. -/
theorem readExactLoop_eq (draw : Nat → Nat) {fuel need : Nat} (h : need ≤ fuel) (got bytes : List Byte) (term : RxTerm) :
    readExactLoop draw fuel need got ⟨bytes, term⟩ =
      if need ≤ bytes.length then .done (got ++ bytes.take need) ⟨bytes.drop need, term⟩
      else ExactRead.onExhausted term := by
  induction fuel generalizing need got bytes with
  | zero =>
    obtain rfl : need = 0 := by omega
    simp [readExactLoop_zero]
  | succ fuel ih =>
    cases need with
    | zero => simp [readExactLoop_zero]
    | succ need =>
      cases bytes with
      | nil => simp [readExactLoop_nil]
      | cons b rest =>
        obtain ⟨j, hj, hjrest, hread⟩ := readSome_cons (draw (rest.length + 1)) (Nat.succ_pos need) b rest term
        have hround : readExactLoop draw (fuel + 1) (need + 1) got ⟨b :: rest, term⟩ =
            readExactLoop draw fuel (need - j) (got ++ b :: rest.take j) ⟨rest.drop j, term⟩ := by
          have hleft : need + 1 - (b :: rest.take j).length = need - j := by simp; omega
          simp only [readExactLoop, List.length_cons, hread]
          rw [← hleft]
          rfl
        have htake : rest.take j ++ (rest.drop j).take (need - j) = rest.take need := by
          rw [← List.take_add, Nat.add_sub_cancel' (by omega)]
        have hdrop : (rest.drop j).drop (need - j) = rest.drop need := by
          rw [List.drop_drop, Nat.add_sub_cancel' (by omega)]
        have hfits : need - j ≤ (rest.drop j).length ↔ need + 1 ≤ (b :: rest).length := by
          rw [List.length_drop, List.length_cons]
          omega
        rw [hround, ih (by omega)]
        simp only [hfits, hdrop, List.append_assoc, List.cons_append, htake, List.take_succ_cons, List.drop_succ_cons]

theorem readExact_eq (draw : Nat → Nat) (n : Nat) (bytes : List Byte) (term : RxTerm) :
    readExact draw n ⟨bytes, term⟩ =
      if n ≤ bytes.length then .done (bytes.take n) ⟨bytes.drop n, term⟩ else ExactRead.onExhausted term :=
  readExactLoop_eq draw (Nat.le_refl n) [] bytes term

theorem readExact_append (draw : Nat → Nat) {n : Nat} {got : List Byte} (h : got.length = n) (rest : List Byte)
    (term : RxTerm) : readExact draw n ⟨got ++ rest, term⟩ = .done got ⟨rest, term⟩ := by
  subst h
  simp [readExact_eq]

theorem readExact_short (draw : Nat → Nat) {n : Nat} {bytes : List Byte} (h : bytes.length < n) (term : RxTerm) :
    readExact draw n ⟨bytes, term⟩ = ExactRead.onExhausted term := by
  rw [readExact_eq, if_neg (by omega)]

/-! The algorithm on a frame. -/

/-- What a DECODE comes to that finds too few bytes (spec 43 R155). -/
def FrameRead.onExhausted (term : RxTerm) : FrameRead :=
  match term.endCode with
  | some code => .responded (Response.error code) ⟨[], term⟩
  | none => .waits ⟨[], term⟩

theorem andThen_onExhausted (term : RxTerm) (k : List Byte → RxStream → FrameRead) :
    (ExactRead.onExhausted term).andThen k = FrameRead.onExhausted term := by
  cases term <;> rfl

/-- The first two reads, where SOF and the LENGTH bytes are there. -/
theorem decodeFrame_length (draw : Nat → Nat) {width : Width} {lenb : List Byte} (hlenb : lenb.length = width.bytes)
    (bytes : List Byte) (term : RxTerm) :
    decodeFrame draw width ⟨Config.sof :: (lenb ++ bytes), term⟩ =
      (readExact draw ((fromLe lenb).toNat + Config.cmdBytes) ⟨bytes, term⟩).andThen fun rest rx3 =>
        (readExact draw 1 rx3).andThen fun c rx4 => .responded (answerOf lenb rest (c.getD 0 0)) rx4 := by
  have hsof := readExact_append draw (n := 1) (got := [Config.sof]) rfl (lenb ++ bytes) term
  rw [List.singleton_append] at hsof
  rw [decodeFrame, hsof]
  simp [ExactRead.andThen, readExact_append draw hlenb]

/-- A whole frame is answered, and what follows it stays. -/
theorem decodeFrame_frame (draw : Nat → Nat) {width : Width} {lenb body : List Byte} (c : Byte) (rest : List Byte)
    (term : RxTerm) (hlenb : lenb.length = width.bytes)
    (hbody : body.length = (fromLe lenb).toNat + Config.cmdBytes) :
    decodeFrame draw width ⟨Config.sof :: (lenb ++ body ++ c :: rest), term⟩ =
      .responded (answerOf lenb body c) ⟨rest, term⟩ := by
  have hfcs := readExact_append draw (n := 1) (got := [c]) rfl rest term
  rw [List.singleton_append] at hfcs
  rw [List.append_assoc, decodeFrame_length draw hlenb, readExact_append draw hbody]
  simp only [ExactRead.andThen, hfcs]
  rfl

/-- A frame cut inside HEADER, COMMAND or payload: all of it is consumed, and the stream's condition decides. -/
theorem decodeFrame_cut (draw : Nat → Nat) {width : Width} {lenb body : List Byte} (term : RxTerm)
    (hlenb : lenb.length = width.bytes) (hbody : body.length < (fromLe lenb).toNat + Config.cmdBytes) :
    decodeFrame draw width ⟨Config.sof :: (lenb ++ body), term⟩ =
      FrameRead.onExhausted term := by
  rw [decodeFrame_length draw hlenb, readExact_short draw hbody, andThen_onExhausted]

/-! The codes of the algorithm. -/

/-- A read never fails with FRAME_TOO_LARGE, so it is answered only where what follows the read answers it. -/
theorem andThen_code_ne_frameTooLarge {draw : Nat → Nat} {n : Nat} {rx rx' : RxStream} {r : Response}
    {k : List Byte → RxStream → FrameRead} (h : (readExact draw n rx).andThen k = .responded r rx')
    (hk : ∀ got rx1, k got rx1 = .responded r rx' → r.code ≠ .frameTooLarge) : r.code ≠ .frameTooLarge := by
  rw [readExact_eq] at h
  split at h
  · exact hk _ _ h
  · rw [andThen_onExhausted] at h
    cases hterm : rx.term <;> rw [hterm] at h <;> cases h <;> nofun

theorem answerOf_code_ne_frameTooLarge (lenb body : List Byte) (c : Byte) :
    (answerOf lenb body c).code ≠ .frameTooLarge := by
  unfold answerOf
  split <;> nofun

theorem decodeFrame_code_ne_frameTooLarge {draw : Nat → Nat} {width : Width} {rx rx' : RxStream} {r : Response}
    (h : decodeFrame draw width rx = .responded r rx') : r.code ≠ .frameTooLarge := by
  refine andThen_code_ne_frameTooLarge h fun sof rx1 h1 => ?_
  split at h1
  · cases h1
    nofun
  · refine andThen_code_ne_frameTooLarge h1 fun lenb rx2 h2 => andThen_code_ne_frameTooLarge h2 fun body rx3 h3 =>
      andThen_code_ne_frameTooLarge h3 fun c rx4 h4 => ?_
    cases h4
    exact answerOf_code_ne_frameTooLarge lenb body _

/-! The statement. -/

/-- The frame around any body whose LENGTH field counts its payload is answered by that payload. -/
theorem decodeFrame_frameAround (draw : Nat → Nat) {width : Width} (header command : Byte) {payload : List Byte}
    (rest : List Byte) (term : RxTerm) (h : payload.length ≤ decMaxPayload width) :
    decodeFrame draw width
      ⟨frameAround (frameBody width (BitVec.ofNat 16 payload.length) header command payload) ++ rest, term⟩ =
      .responded (Response.okPacket (packetOf header command payload)) ⟨rest, term⟩ := by
  rw [frameAround_frameBody, List.cons_append, List.append_assoc, List.singleton_append,
    decodeFrame_frame draw _ rest term (length_leBytes _ _) (by rw [toNat_fromLe_leBytes h]; rfl), answerOf_fcs]

/-- The longest payload that the LENGTH field can count, which ENCODE refuses. -/
def longestPayload (width : Width) : List Byte := List.replicate (decMaxPayload width) 0x00#8

theorem length_longestPayload (width : Width) : (longestPayload width).length = decMaxPayload width :=
  List.length_replicate

theorem packetWF_longestPayload (width : Width) (header command : Byte) :
    packetWF (packetOf header command (longestPayload width)) width = false := by
  have hlong : encMaxPayload width < decMaxPayload width := by cases width <;> decide
  rw [← Bool.not_eq_true, packetWF_iff]
  rintro ⟨-, hfit⟩
  rw [packetOf, length_longestPayload] at hfit
  omega

/-- Settles O21: a frame whose LENGTH counts its payload is answered with it, the longest one included. -/
theorem decoderAcceptsEveryLength : Obligations.DecoderAcceptsEveryLength := by
  refine ⟨fun draw width header command payload rest term h => ?accepts,
    fun draw width rx rx' r h => decodeFrame_code_ne_frameTooLarge h, fun width => ?notWF⟩
  case accepts => exact decodeFrame_frameAround draw header command rest term h
  case notWF =>
    exact ⟨fun _ => 1, _, _, _,
      decodeFrame_frameAround _ 0x00#8 0x00#8 [] .opened (length_longestPayload width).le,
      packetWF_longestPayload width _ _⟩

end Sys2Proof.Machine
end

section
/-! PROOFS. What the machine makes of a frame that ENCODE answered (spec 42 R136), of one with a bit flipped (R138), and of
an exhausted stream (R140). -/

namespace Sys2Proof.Machine

open Sys2Proof

/-! The frame of a Packet. -/

/-- HEADER, COMMAND and payload of the frame of a Packet (spec 41 R100). -/
def packetRest (p : Packet) : List Byte := hdrPack p.messageType p.subSystem :: p.commandId :: p.payload

/-- The LENGTH bytes of the frame of a Packet (spec 41 R100). -/
def packetLength (width : Width) (p : Packet) : List Byte := leBytes width (BitVec.ofNat 16 p.payload.length)

theorem packetFrame_eq (width : Width) (p : Packet) :
    packetFrame width p =
      Config.sof :: (packetLength width p ++ packetRest p ++ [fcs (packetLength width p ++ packetRest p)]) :=
  frameAround_frameBody width _ _ _ _

theorem length_packetLength (width : Width) (p : Packet) : (packetLength width p).length = width.bytes :=
  length_leBytes width _

theorem length_packetRest (p : Packet) : (packetRest p).length = p.payload.length + Config.cmdBytes := rfl

theorem length_packetRest_of_fits {width : Width} {p : Packet} (h : p.payload.length ≤ encMaxPayload width) :
    (packetRest p).length = (fromLe (packetLength width p)).toNat + Config.cmdBytes := by
  rw [length_packetRest, packetLength, toNat_fromLe_leBytes (h.trans (encMaxPayload_le_decMaxPayload width))]

/-- The bytes of the frame, and one step for the acceptance of the DECODE. -/
theorem length_packetFrame_succ (width : Width) (p : Packet) :
    (packetFrame width p).length + 1 = width.bytes + (packetRest p).length + 3 := by
  rw [length_packetFrame, length_packetRest, Config.cmdBytes]
  omega

/-! The round trip. -/

/-- Settles O23: the frame that ENCODE answered is that of the Packet, a whole frame, and its checksum matches. -/
theorem roundTripOnTheMachine : Obligations.RoundTripOnTheMachine := by
  intro width p e e' s f rest hwf hidle hencode hlog hready hrx
  obtain ⟨hinPlace, hfit⟩ := (packetWF_iff p width).mp hwf
  obtain ⟨-, rfl⟩ := fits_of_exec_encodeInstr_answers_frame width p hidle hencode hlog
  rw [packetFrame_eq, List.cons_append, List.append_assoc, List.singleton_append] at hrx
  have hrun := runSteps_ready_frame hready (length_packetLength width p) (length_packetRest_of_fits hfit) hrx
  have hanswer : answerOf (packetLength width p) (packetRest p) (fcs (packetLength width p ++ packetRest p)) =
      Response.okPacket p := by
    rw [packetRest, answerOf_fcs, packetOf_hdrPack hinPlace]
  rw [length_packetFrame_succ]
  rwa [hanswer] at hrun

/-! One bit flipped (spec 42 R138). -/

section Flip

variable {width : Width} {p : Packet} {s : State} {rest : List Byte} {k : Nat} (hk : k < 8)
include hk

/-- Bytes that follow LENGTH and whose fold with it was closed: with one bit flipped it is no longer closed. -/
theorem exists_flipBit_eq_append_checksumError {lenb body : List Byte} {j : Nat} (hj : j < body.length + 1) :
    ∃ body' c', flipBit (body ++ [fcs (lenb ++ body)]) j k = body' ++ [c'] ∧ body'.length = body.length ∧
      answerOf lenb body' c' = Response.error .checksumError := by
  have hj' : j < (body ++ [fcs (lenb ++ body)]).length := by simpa using hj
  generalize hflip : flipBit (body ++ [fcs (lenb ++ body)]) j k = flipped
  have hlength : flipped.length = body.length + 1 := by simp [← hflip]
  obtain rfl | ⟨body', c', rfl⟩ := List.eq_nil_or_concat' flipped
  · cases hlength
  · refine ⟨body', c', rfl, by simpa using hlength, answerOf_eq_checksumError ?_⟩
    have hclosed : foldXor Config.fcsSeed (lenb ++ (body ++ [fcs (lenb ++ body)])) = 0x00#8 := by
      rw [← List.append_assoc]
      exact foldXor_append_fcs _
    rw [List.append_assoc, ← hflip, ← hclosed, foldXor_append, foldXor_append _ lenb]
    exact foldXor_flipBit_ne _ hj' hk

/-- A flip behind LENGTH: the decoder reads as many bytes as before, and the checksum fails. -/
theorem runSteps_flip_behind_length {i : Nat} (hfit : p.payload.length ≤ encMaxPayload width)
    (hready : s.readyToDecode width) (hi : i < (packetFrame width p).length) (hbehind : width.bytes < i)
    (hrx : s.rx.bytes = flipBit (packetFrame width p) i k ++ rest) :
    ∃ t, runSteps ((packetFrame width p).length + 1) s = .next t ∧ t.phase = .idle ∧
      t.log = s.log ++ [Response.error .checksumError] ∧ t.rx = ⟨rest, s.rx.term⟩ := by
  have hbody := length_packetRest_of_fits hfit
  have hlenb := length_packetLength width p
  have hcount := length_packetFrame_succ width p
  rw [packetFrame_eq] at hrx
  generalize packetLength width p = lenb at hrx hbody hlenb
  generalize packetRest p = body at hrx hbody hcount
  obtain ⟨j, rfl⟩ : ∃ j, i = (lenb.length + j) + 1 := ⟨i - width.bytes - 1, by omega⟩
  obtain ⟨body', c', hflip, hbody', hanswer⟩ :=
    exists_flipBit_eq_append_checksumError hk (lenb := lenb) (body := body) (j := j) (by omega)
  rw [flipBit_cons_succ, List.append_assoc, flipBit_append_right, hflip, ← List.append_assoc, List.cons_append,
    List.append_assoc, List.singleton_append] at hrx
  rw [hcount, ← hbody', ← hanswer]
  exact runSteps_ready_frame hready hlenb (hbody'.trans hbody) hrx

/-- A flip in SOF: the first byte is no SOF. -/
theorem runSteps_flip_sof (hready : s.readyToDecode width)
    (hrx : s.rx.bytes = flipBit (packetFrame width p) 0 k ++ rest) :
    ∃ t, runSteps 2 s = .next t ∧ t.phase = .idle ∧ t.log = s.log ++ [Response.error .framingError] ∧
      t.rx = ⟨(packetFrame width p).tail ++ rest, s.rx.term⟩ := by
  have hsof : Config.sof ^^^ (1#8 <<< k) ≠ Config.sof := by
    intro h
    exact one_shiftLeft_ne_zero hk (by simpa using h)
  exact runSteps_ready_not_sof hready hsof hrx

/-- A flip in LENGTH changes the number it stands for. -/
theorem fromLe_flip_length_ne {i : Nat} (hfit : p.payload.length ≤ encMaxPayload width) (hi : 0 < i)
    (hlength : i ≤ width.bytes) :
    fromLe (((flipBit (packetFrame width p) i k).drop 1).take width.bytes) ≠ BitVec.ofNat 16 p.payload.length := by
  have hlenb := length_packetLength width p
  obtain ⟨j, rfl⟩ : ∃ j, i = j + 1 := ⟨i - 1, by omega⟩
  have hj : j < (packetLength width p).length := by omega
  have hflipped : ((flipBit (packetFrame width p) (j + 1) k).drop 1).take width.bytes =
      flipBit (packetLength width p) j k := by
    rw [packetFrame_eq, flipBit_cons_succ, List.append_assoc, flipBit_append_left hj, List.drop_succ_cons,
      List.drop_zero, ← hlenb, ← length_flipBit (packetLength width p) j k, List.take_left]
  rw [hflipped, ← fromLe_leBytes (hfit.trans (encMaxPayload_le_decMaxPayload width))]
  intro h
  exact flipBit_ne hj hk (fromLe_injective (by rw [length_flipBit, hlenb]) hlenb h)

end Flip

/-! The outcomes that a flip in LENGTH can have, on two frames. -/

/-- The Packet whose frame has LENGTH 3, spec 42 R138's case of a LENGTH that is read as another. -/
def threeBytePacket : Packet := ⟨0x40#8, 0x0F#8, 0x02#8, [1, 2, 3]⟩

/-- LENGTH 2: HEADER, COMMAND and two payload bytes are read, and the third one stands where the FCS is expected. -/
theorem decodeFrame_length_too_small (draw : Nat → Nat) :
    decodeFrame draw .w1 ⟨flipBit (packetFrame .w1 threeBytePacket) 1 0, .opened⟩ =
      .responded (Response.error .checksumError) ⟨[0xB1#8], .opened⟩ :=
  decodeFrame_frame draw (lenb := [2]) (body := [0x4F#8, 0x02#8, 1, 2]) 3 [0xB1#8] .opened rfl rfl

/-- LENGTH 7: the frame ends before its payload does. -/
theorem decodeFrame_length_too_large (draw : Nat → Nat) (term : RxTerm) :
    decodeFrame draw .w1 ⟨flipBit (packetFrame .w1 threeBytePacket) 1 2, term⟩ = FrameRead.onExhausted term :=
  decodeFrame_cut draw (lenb := [7]) (body := [0x4F#8, 0x02#8, 1, 2, 3, 0xB1#8]) term rfl (by decide)

/-- LENGTH 0: the one payload byte stands where the FCS is expected, and is the FCS of what was read. -/
theorem decodeFrame_length_zero (draw : Nat → Nat) :
    decodeFrame draw .w1 ⟨flipBit (packetFrame .w1 ⟨0x20#8, 0x06#8, 0x01#8, [0xD8#8]⟩) 1 0, .opened⟩ =
      .responded (Response.okPacket ⟨0x20#8, 0x06#8, 0x01#8, []⟩) ⟨[0x01#8], .opened⟩ :=
  decodeFrame_frame draw (lenb := [0]) (body := [0x26#8, 0x01#8]) 0xD8#8 [0x01#8] .opened rfl rfl

/-- Settles O24: by the region of the flipped bit, and for LENGTH by the frames of spec 42 R138. -/
theorem singleBitFlips : Obligations.SingleBitFlips := by
  refine ⟨fun width p s rest i k hwf hk hi hready hrx => ?regions, fun draw => ?lengths⟩
  case regions =>
    obtain ⟨-, hfit⟩ := (packetWF_iff p width).mp hwf
    refine ⟨fun hbehind => ?behind, ?sof, fun hpos hlength => ?length⟩
    case behind => exact runSteps_flip_behind_length hk hfit hready hi hbehind hrx
    case sof =>
      rintro rfl
      exact runSteps_flip_sof hk hready hrx
    case length => exact fromLe_flip_length_ne hk hfit hpos hlength
  case lengths =>
    exact ⟨⟨_, decodeFrame_length_too_small draw⟩, ⟨_, decodeFrame_length_too_large draw .opened⟩,
      ⟨_, decodeFrame_length_too_large draw .closed⟩, ⟨_, decodeFrame_length_too_large draw .errored⟩,
      decodeFrame_length_zero draw⟩

/-! An exhausted stream (spec 42 R140). -/

/-- The block's step where the oldest waiting command is a DECODE that it accepts. -/
theorem step_accepts_decode {s : State} {width : Width} {waiting : List Command} (hidle : s.phase = .idle)
    (hschedule : s.schedule = []) (hport : s.port = decodeCommand width :: waiting) :
    step s = .next ({ s with port := waiting }.startDecode width) := by
  have hexec : exec (decodeInstr width) { s with port := waiting } =
      .next ({ s with port := waiting }.startDecode width) := exec_decodeInstr_of_idle width hidle
  rw [step_of_no_schedule hschedule, ← hexec, ← decode_decodeCommand]
  simp [blockStep, hport, State.accepts, hidle]

/-- A waiting DECODE on an exhausted stream takes two steps, its acceptance and its end. -/
theorem runSteps_decode_exhausted {s : State} {width : Width} {waiting : List Command} {code : ResultCode}
    (hidle : s.phase = .idle) (hschedule : s.schedule = []) (hport : s.port = decodeCommand width :: waiting)
    (hwaiting : ∀ c ∈ waiting, Command.isAbort c = false) (hrx : s.rx.bytes = [])
    (hcode : s.rx.term.endCode = some code) :
    runSteps 2 s = .next (({ s with port := waiting }.startDecode width).raise code) := by
  have hend : step ({ s with port := waiting }.startDecode width) =
      .next (({ s with port := waiting }.startDecode width).raise code) :=
    step_of_exhausted ⟨hschedule, hwaiting⟩ nofun hrx hcode
  rw [runSteps_succ_of_next 1 (step_accepts_decode hidle hschedule hport), runSteps_succ_of_next 0 hend, runSteps_zero]

theorem runSteps_decodes_exhausted (width : Width) (n : Nat) {s : State} {code : ResultCode} (hidle : s.phase = .idle)
    (hschedule : s.schedule = []) (hport : s.port = List.replicate n (decodeCommand width)) (hrx : s.rx.bytes = [])
    (hcode : s.rx.term.endCode = some code) :
    ∃ t, runSteps (2 * n) s = .next t ∧ t.phase = .idle ∧ t.rx = s.rx ∧
      t.log = s.log ++ List.replicate n (Response.error code) := by
  induction n generalizing s with
  | zero => exact ⟨s, rfl, hidle, rfl, by simp⟩
  | succ n ih =>
    have hwaiting : ∀ c ∈ List.replicate n (decodeCommand width), Command.isAbort c = false := by
      intro c hc
      rw [List.eq_of_mem_replicate hc, isAbort_decodeCommand]
    have hone := runSteps_decode_exhausted hidle hschedule hport hwaiting hrx hcode
    obtain ⟨t, hrun, htidle, htrx, htlog⟩ := ih
      (s := ({ s with port := List.replicate n (decodeCommand width) }.startDecode width).raise code)
      rfl hschedule rfl hrx hcode
    refine ⟨t, ?_, htidle, htrx, ?_⟩
    · rw [show 2 * (n + 1) = 2 + 2 * n by omega]
      exact runSteps_trans hone hrun
    · rw [htlog, State.raise_log, List.append_assoc, List.replicate_succ, List.singleton_append]
      rfl

/-- Settles O26: by induction on the number of waiting DECODEs. -/
theorem exhaustedStream : Obligations.ExhaustedStream := by
  intro width k s hidle hschedule hport hrx
  exact ⟨fun hclosed => runSteps_decodes_exhausted width k hidle hschedule hport hrx (congrArg RxTerm.endCode hclosed),
    fun herrored => runSteps_decodes_exhausted width k hidle hschedule hport hrx (congrArg RxTerm.endCode herrored),
    ⟨_, if_pos hidle, rfl⟩⟩

end Sys2Proof.Machine
end

section
/-! PROOFS. The exact reader and the chunk sizes (spec 43 R152, R154): a read's outcome by the bytes that are there and the
stream's condition, and the same read for every choice of chunk sizes. -/

namespace Sys2Proof.Machine

open Sys2Proof

theorem readExact_of_le (draw : Nat → Nat) {n : Nat} {rx : RxStream} (h : n ≤ rx.bytes.length) :
    readExact draw n rx = .done (rx.bytes.take n) ⟨rx.bytes.drop n, rx.term⟩ :=
  (readExact_eq draw n rx.bytes rx.term).trans (if_pos h)

/-- A read that finds too few bytes ends by the stream's condition alone. -/
theorem readExact_of_lt (draw : Nat → Nat) {n : Nat} {rx : RxStream} {term : RxTerm} (h : rx.bytes.length < n)
    (hterm : rx.term = term) : readExact draw n rx = ExactRead.onExhausted term :=
  hterm ▸ readExact_short draw h rx.term

/-- The chunk sizes stand on neither right-hand side of `readExact_eq`, so the reader is one function for all of them. -/
theorem readExact_draw_eq (draw draw' : Nat → Nat) : readExact draw = readExact draw' := by
  funext n rx
  exact (readExact_eq draw n rx.bytes rx.term).trans (readExact_eq draw' n rx.bytes rx.term).symm

/-- DECODE meets the transport only through the exact reader. -/
theorem decodeFrame_draw_eq (draw draw' : Nat → Nat) (width : Width) (rx : RxStream) :
    decodeFrame draw width rx = decodeFrame draw' width rx := by
  rw [decodeFrame, decodeFrame, readExact_draw_eq draw draw']

/-- Settles O29: by the outcome of a read, which does not mention the chunk sizes. -/
theorem chunkingIsInvisible : Obligations.ChunkingIsInvisible := by
  refine ⟨fun draw n rx => ⟨readExact_of_le draw, ?closed, ?errored, ?opened⟩, ?zero, decodeFrame_draw_eq⟩
  case closed => exact readExact_of_lt draw
  case errored => exact readExact_of_lt draw
  case opened => exact readExact_of_lt draw
  case zero => exact fun draw rx => readExactLoop_zero draw 0 [] rx

end Sys2Proof.Machine
end

section
/-! PROOFS. The control commands of spec 44 on an idle block: ABORT leaves it alone (R161), and the reserved words, read off
the OP and RSVD fields, are answered by ILLEGAL_COMMAND and nothing else (R162, R163). -/

namespace Sys2Proof.Machine

open Sys2Proof

/-! The fields of a command word as numbers. -/

theorem toNat_opField (word : Byte) : (opField word).toNat = word.toNat % 4 := by
  simp [opField]

theorem toNat_rsvdField (word : Byte) : (rsvdField word).toNat = word.toNat / 8 := by
  have hbyte : word.toNat / 8 < 32 := by omega
  simp [rsvdField, Nat.shiftRight_eq_div_pow, Nat.mod_eq_of_lt hbyte]

theorem opField_eq_iff (word : Byte) (v : BitVec 2) : opField word = v ↔ word.toNat % 4 = v.toNat := by
  rw [← toNat_opField, BitVec.toNat_inj]

theorem rsvdField_ne_zero {word : Byte} (h : word.toNat / 8 ≠ 0) : rsvdField word ≠ 0#5 := by
  intro hzero
  rw [← toNat_rsvdField, hzero] at h
  exact h rfl

/-! The reserved words. -/

theorem decode_of_reserved_op {word : Byte} (p : Packet) (h : word.toNat % 4 = 0) :
    decode ⟨word, p⟩ = .illegalReservedOp (ignoredField word) :=
  if_pos ((opField_eq_iff word 0b00#2).mpr h)

/-- RSVD is looked at before the operation, so the Packet stands nowhere in the result. -/
theorem decode_of_reserved_bits {word : Byte} (p : Packet) (hop : word.toNat % 4 = 1 ∨ word.toNat % 4 = 2)
    (hrsvd : word.toNat / 8 ≠ 0) :
    ∃ op, decode ⟨word, p⟩ = .illegalReservedRsvd op (wselField word) (rsvdField word) := by
  have hfield : rsvdField word ≠ 0#5 := rsvdField_ne_zero hrsvd
  rcases hop with hop | hop
  · have h01 : opField word = 0b01#2 := (opField_eq_iff word 0b01#2).mpr hop
    exact ⟨.encode, by simp [decode, decodeOp01, h01, hfield]⟩
  · have h10 : opField word = 0b10#2 := (opField_eq_iff word 0b10#2).mpr hop
    exact ⟨.decode, by simp [decode, decodeOp10, h10, hfield]⟩

/-! An idle block. -/

section Idle

variable {s : State} (hidle : s.phase = .idle)
include hidle

theorem State.raise_of_idle (code : ResultCode) : s.raise code = { s with log := s.log ++ [Response.error code] } := by
  rw [State.raise, State.respond, ← hidle]

theorem exec_abort_of_idle (ignored : BitVec 6) : exec (.abort ignored) s = .next s :=
  (execAbort_eq ignored s).trans (by rw [if_pos hidle])

theorem exec_illegalReservedOp_of_idle (ignored : BitVec 6) :
    exec (.illegalReservedOp ignored) s = .next { s with log := s.log ++ [Response.error .illegalCommand] } := by
  rw [← State.raise_of_idle hidle]
  exact whenIdle_of_idle _ _ hidle

theorem exec_illegalReservedRsvd_of_idle (op : CodecOp) (wsel : Bool) (rsvd : BitVec 5) :
    exec (.illegalReservedRsvd op wsel rsvd) s = .next { s with log := s.log ++ [Response.error .illegalCommand] } := by
  rw [← State.raise_of_idle hidle]
  exact whenIdle_of_idle _ _ hidle

/-- An idle block before which nothing waits takes every command, ABORT or not. -/
theorem issue_of_idle (c : Command) (hport : s.port = []) : issue c s = exec (decode c) s := by
  simp [issue, hidle, hport]

end Idle

/-! The three statements. -/

/-- Settles O31: the block is idle after an ENCODE, which only appends its response. -/
theorem abortWhileIdle : Obligations.AbortWhileIdle := by
  refine fun ignored s hidle => ⟨exec_abort_of_idle hidle ignored, fun width p t hencode => ?_⟩
  have hstill : t.phase = .idle := by
    rw [exec_encodeInstr_of_idle width p hidle] at hencode
    cases hencode
    exact hidle
  exact exec_abort_of_idle hstill ignored

/-- Settles O33: a word with OP = 00 decodes to the reserved OP, which an idle block answers at once. -/
theorem reservedOpAnswersIllegal : Obligations.ReservedOpAnswersIllegal := by
  refine fun s hidle => ⟨exec_illegalReservedOp_of_idle hidle, fun word p hop hport => ?_⟩
  rw [issue_of_idle hidle _ hport, decode_of_reserved_op p hop]
  exact exec_illegalReservedOp_of_idle hidle _

/-- Settles O34: reserved bits decode to no ENCODE or DECODE, whatever the Packet is, so no check of either is reached. -/
theorem reservedBitsAnswerIllegal : Obligations.ReservedBitsAnswerIllegal := by
  refine fun s hidle => ⟨exec_illegalReservedRsvd_of_idle hidle, fun word p hop hrsvd hport => ?_⟩
  obtain ⟨op, hdecode⟩ := decode_of_reserved_bits p hop hrsvd
  rw [issue_of_idle hidle _ hport, hdecode]
  exact exec_illegalReservedRsvd_of_idle hidle op _ _

end Sys2Proof.Machine
end

section
/-! PROOFS. The command word (spec 30 R60, R67, R68): its fields out of an encoded word and back, and the operation that they
select. -/

namespace Sys2Proof.Machine

open Sys2Proof

/-! The fields of a word that was put together from fields. -/

@[simp] theorem opField_append (x : BitVec 6) (op : BitVec 2) : opField (x ++ op) = op :=
  BitVec.extractLsb'_append_eq_right

@[simp] theorem ignoredField_append (x : BitVec 6) (op : BitVec 2) : ignoredField (x ++ op) = x :=
  BitVec.extractLsb'_append_eq_left

@[simp] theorem opField_packWord (rsvd : BitVec 5) (wsel : Bool) (op : BitVec 2) : opField (packWord rsvd wsel op) = op :=
  BitVec.extractLsb'_append_eq_right

theorem packWord_eq_append (rsvd : BitVec 5) (wsel : Bool) (op : BitVec 2) :
    packWord rsvd wsel op = rsvd ++ (BitVec.ofBool wsel ++ op) :=
  BitVec.append_assoc

@[simp] theorem wselField_packWord (rsvd : BitVec 5) (wsel : Bool) (op : BitVec 2) :
    wselField (packWord rsvd wsel op) = wsel :=
  calc (packWord rsvd wsel op).getLsbD 2 = (rsvd ++ BitVec.ofBool wsel).getLsbD 0 := BitVec.getLsbD_append
    _ = (BitVec.ofBool wsel).getLsbD 0 := BitVec.getLsbD_append
    _ = wsel := by simp

@[simp] theorem rsvdField_packWord (rsvd : BitVec 5) (wsel : Bool) (op : BitVec 2) :
    rsvdField (packWord rsvd wsel op) = rsvd := by
  rw [packWord_eq_append]
  exact BitVec.extractLsb'_append_eq_left

/-! A word is its fields. -/

theorem ignoredField_append_opField (word : Byte) : ignoredField word ++ opField word = word :=
  (BitVec.extractLsb'_append_extractLsb'_eq_extractLsb' rfl).trans BitVec.extractLsb'_eq_self

theorem packWord_fields (word : Byte) : packWord (rsvdField word) (wselField word) (opField word) = word := by
  have hwsel : BitVec.ofBool (wselField word) = word.extractLsb' 2 1 := by
    refine BitVec.eq_of_getLsbD_eq fun i hi => ?_
    obtain rfl : i = 0 := by omega
    simp [wselField]
  have hupper : rsvdField word ++ BitVec.ofBool (wselField word) = word.extractLsb' 2 6 := by
    rw [hwsel]
    exact BitVec.extractLsb'_append_extractLsb'_eq_extractLsb' rfl
  rw [packWord, hupper]
  exact ignoredField_append_opField word

/-! What a word decodes to, by its OP. -/

/-- The four operation fields, each with what it decodes to. -/
theorem decode_cases (c : Command) :
    (opField c.word = 0b00#2 ∧ decode c = .illegalReservedOp (ignoredField c.word)) ∨
    (opField c.word = 0b01#2 ∧ decode c = decodeOp01 c) ∨ (opField c.word = 0b10#2 ∧ decode c = decodeOp10 c) ∨
    (opField c.word = 0b11#2 ∧ decode c = .abort (ignoredField c.word)) := by
  have hop : ∀ v : BitVec 2, v = 0b00#2 ∨ v = 0b01#2 ∨ v = 0b10#2 ∨ v = 0b11#2 := by decide
  rcases hop (opField c.word) with h | h | h | h
  · exact .inl ⟨h, by simp [decode, h]⟩
  · exact .inr (.inl ⟨h, by simp [decode, h]⟩)
  · exact .inr (.inr (.inl ⟨h, by simp [decode, h]⟩))
  · exact .inr (.inr (.inr ⟨h, by simp [decode, h]⟩))

theorem decodeOp01_cases (c : Command) :
    (rsvdField c.word = 0 ∧ wselField c.word = true ∧ decodeOp01 c = .encodeW2 c.pkt) ∨
    (rsvdField c.word = 0 ∧ wselField c.word = false ∧ decodeOp01 c = .encodeW1 c.pkt) ∨
    (rsvdField c.word ≠ 0 ∧
      decodeOp01 c = .illegalReservedRsvd .encode (wselField c.word) (rsvdField c.word)) := by
  by_cases hr : rsvdField c.word = 0
  · cases hw : wselField c.word with
    | true => exact .inl ⟨hr, rfl, by simp [decodeOp01, hr, hw]⟩
    | false => exact .inr (.inl ⟨hr, rfl, by simp [decodeOp01, hr, hw]⟩)
  · exact .inr (.inr ⟨hr, if_neg hr⟩)

theorem decodeOp10_cases (c : Command) :
    (rsvdField c.word = 0 ∧ wselField c.word = true ∧ decodeOp10 c = .decodeW2) ∨
    (rsvdField c.word = 0 ∧ wselField c.word = false ∧ decodeOp10 c = .decodeW1) ∨
    (rsvdField c.word ≠ 0 ∧
      decodeOp10 c = .illegalReservedRsvd .decode (wselField c.word) (rsvdField c.word)) := by
  by_cases hr : rsvdField c.word = 0
  · cases hw : wselField c.word with
    | true => exact .inl ⟨hr, rfl, by simp [decodeOp10, hr, hw]⟩
    | false => exact .inr (.inl ⟨hr, rfl, by simp [decodeOp10, hr, hw]⟩)
  · exact .inr (.inr ⟨hr, if_neg hr⟩)

/-! Decoding and encoding. -/

theorem decode_encode {i : Instr} (h : i.wellFormed = true) : decode (encode i) = i := by
  cases i with
  | encodeW1 p => simp [decode, decodeOp01, encode, Instr.word, Instr.operand]
  | encodeW2 p => simp [decode, decodeOp01, encode, Instr.word, Instr.operand]
  | decodeW1 => rfl
  | decodeW2 => rfl
  | abort x => simp [decode, encode, Instr.word]
  | illegalReservedOp x => simp [decode, encode, Instr.word]
  | illegalReservedRsvd op wsel rsvd =>
    have hrsvd : rsvd ≠ 0#5 := by simpa [Instr.wellFormed] using h
    cases op <;> simp [decode, decodeOp01, decodeOp10, encode, Instr.word, CodecOp.bits, hrsvd]

/-- What a command decodes to is well formed: a reserved-bits word has a reserved bit, and the Packet is the port's. -/
theorem wellFormed_decode {c : Command} (h : c.pkt.presentable = true) : (decode c).wellFormed = true := by
  rcases decode_cases c with ⟨-, hc⟩ | ⟨-, hc⟩ | ⟨-, hc⟩ | ⟨-, hc⟩
  · rw [hc]
    rfl
  · rcases decodeOp01_cases c with ⟨-, -, hd⟩ | ⟨-, -, hd⟩ | ⟨hr, hd⟩ <;> rw [hc, hd]
    · exact h
    · exact h
    · exact decide_eq_true hr
  · rcases decodeOp10_cases c with ⟨-, -, hd⟩ | ⟨-, -, hd⟩ | ⟨hr, hd⟩ <;> rw [hc, hd]
    · rfl
    · rfl
    · exact decide_eq_true hr
  · rw [hc]
    rfl

/-- Every field of the word is in what it decodes to. -/
theorem word_decode (c : Command) : (decode c).word = c.word := by
  rcases decode_cases c with ⟨hop, hc⟩ | ⟨hop, hc⟩ | ⟨hop, hc⟩ | ⟨hop, hc⟩
  · rw [hc, Instr.word, ← hop, ignoredField_append_opField]
  · have hword := packWord_fields c.word
    rw [hop] at hword
    rcases decodeOp01_cases c with ⟨hr, hw, hd⟩ | ⟨hr, hw, hd⟩ | ⟨-, hd⟩ <;> rw [hc, hd]
    · rwa [hr, hw] at hword
    · rwa [hr, hw] at hword
    · exact hword
  · have hword := packWord_fields c.word
    rw [hop] at hword
    rcases decodeOp10_cases c with ⟨hr, hw, hd⟩ | ⟨hr, hw, hd⟩ | ⟨-, hd⟩ <;> rw [hc, hd]
    · rwa [hr, hw] at hword
    · rwa [hr, hw] at hword
    · exact hword
  · rw [hc, Instr.word, ← hop, ignoredField_append_opField]

/-- Settles O1: the encoder and the decoder agree field by field. -/
theorem commandRoundTrip : Obligations.CommandRoundTrip :=
  ⟨fun _ h => decode_encode h, fun _ h => wellFormed_decode h, word_decode⟩

/-! The fields as numbers. -/

theorem toNat_ignoredField (word : Byte) : (ignoredField word).toNat = word.toNat / 4 := by
  have hbyte : word.toNat / 4 < 64 := by omega
  simp [ignoredField, Nat.shiftRight_eq_div_pow, Nat.mod_eq_of_lt hbyte]

theorem wselField_eq_decide (word : Byte) : wselField word = decide (word.toNat / 4 % 2 = 1) := by
  simp [wselField, BitVec.getLsbD, Nat.testBit_eq_decide_div_mod_eq]

theorem rsvdField_eq_zero_iff (word : Byte) : rsvdField word = 0 ↔ word.toNat / 8 = 0 := by
  rw [← toNat_rsvdField, ← BitVec.toNat_inj]
  rfl

theorem decode_of_abort {word : Byte} (p : Packet) (h : word.toNat % 4 = 3) :
    decode ⟨word, p⟩ = .abort (ignoredField word) := by
  have h11 : opField word = 0b11#2 := (opField_eq_iff word 0b11#2).mpr h
  simp [decode, h11]

theorem decode_of_op01 {word : Byte} (p : Packet) (h : word.toNat % 4 = 1) : decode ⟨word, p⟩ = decodeOp01 ⟨word, p⟩ := by
  have h01 : opField word = 0b01#2 := (opField_eq_iff word 0b01#2).mpr h
  simp [decode, h01]

theorem decode_of_op10 {word : Byte} (p : Packet) (h : word.toNat % 4 = 2) : decode ⟨word, p⟩ = decodeOp10 ⟨word, p⟩ := by
  have h10 : opField word = 0b10#2 := (opField_eq_iff word 0b10#2).mpr h
  simp [decode, h10]

/-- Settles O2: the fields of each word are closed values. -/
theorem commandWordsDecode : Obligations.CommandWordsDecode := by
  intro p
  simp [decode, decodeOp01, decodeOp10, opField, rsvdField, wselField, ignoredField]

/-- Settles O3: OP by the remainder of the word, then RSVD and WSEL by its quotients. -/
theorem opFieldSelectsOperation : Obligations.OpFieldSelectsOperation := by
  intro word p
  refine ⟨fun h0 => ?reserved, fun h3 => ?abort, fun h1 hr => ?encode, fun h2 hr => ?decode, fun h1 hr => ?encodeRsvd,
    fun h2 hr => ?decodeRsvd⟩
  case reserved => exact ⟨_, decode_of_reserved_op p h0, toNat_ignoredField word⟩
  case abort => exact ⟨_, decode_of_abort p h3, toNat_ignoredField word⟩
  case encode =>
    rw [decode_of_op01 p h1, decodeOp01, if_pos ((rsvdField_eq_zero_iff word).mpr hr), wselField_eq_decide]
    simp
  case decode =>
    rw [decode_of_op10 p h2, decodeOp10, if_pos ((rsvdField_eq_zero_iff word).mpr hr), wselField_eq_decide]
    simp
  case encodeRsvd =>
    rw [decode_of_op01 p h1, decodeOp01, if_neg (mt (rsvdField_eq_zero_iff word).mp hr), wselField_eq_decide]
    exact ⟨_, rfl, toNat_rsvdField word⟩
  case decodeRsvd =>
    rw [decode_of_op10 p h2, decodeOp10, if_neg (mt (rsvdField_eq_zero_iff word).mp hr), wselField_eq_decide]
    exact ⟨_, rfl, toNat_rsvdField word⟩

end Sys2Proof.Machine
end

section
/-! PROOFS. Everything that an instruction, the block's own step and a step of the machine can do, each said once as a relation
between the state before and the state after; and what follows for instructions and for the command port (spec 44, 60 R181,
70 R200 and R209). -/

namespace Sys2Proof.Machine

open Sys2Proof

/-! Instructions. -/

/-- The response that an idle block gives to an instruction at once; ABORT is given none, and DECODE only starts. -/
def immediateResponse : Instr → Option Response
  | .encodeW1 p => some (encodeResponse .w1 p)
  | .encodeW2 p => some (encodeResponse .w2 p)
  | .decodeW1 => none
  | .decodeW2 => none
  | .abort _ => none
  | .illegalReservedOp _ => some (Response.error .illegalCommand)
  | .illegalReservedRsvd _ _ _ => some (Response.error .illegalCommand)

/-- Everything an instruction can do: the states it can answer, by whether the block is idle. -/
inductive ExecEffect (i : Instr) (s : State) : State → Prop
  | answer (r : Response) : s.phase = .idle → immediateResponse i = some r →
      ExecEffect i s { s with log := s.log ++ [r] }
  | start (width : Width) : s.phase = .idle → i = decodeInstr width → ExecEffect i s (s.startDecode width)
  | ignore (x : BitVec 6) : s.phase = .idle → i = .abort x → ExecEffect i s s
  | cancel (x : BitVec 6) : s.phase ≠ .idle → i = .abort x → ExecEffect i s (s.raise .cancelled)
  | wait : s.phase ≠ .idle → (∀ x, i ≠ .abort x) → ExecEffect i s (s.holdAtPort (encode i))

theorem exec_effect (i : Instr) (s : State) : ∃ t, exec i s = .next t ∧ ExecEffect i s t := by
  by_cases hidle : s.phase = .idle
  · have hanswer {r : Response} (hexec : exec i s = .next { s with log := s.log ++ [r] })
        (hr : immediateResponse i = some r) : ∃ t, exec i s = .next t ∧ ExecEffect i s t :=
      ⟨_, hexec, .answer r hidle hr⟩
    cases i with
    | encodeW1 p => exact hanswer (exec_encodeInstr_of_idle .w1 p hidle) rfl
    | encodeW2 p => exact hanswer (exec_encodeInstr_of_idle .w2 p hidle) rfl
    | decodeW1 => exact ⟨_, exec_decodeInstr_of_idle .w1 hidle, .start .w1 hidle rfl⟩
    | decodeW2 => exact ⟨_, exec_decodeInstr_of_idle .w2 hidle, .start .w2 hidle rfl⟩
    | abort x => exact ⟨s, exec_abort_of_idle hidle x, .ignore x hidle rfl⟩
    | illegalReservedOp x => exact hanswer (exec_illegalReservedOp_of_idle hidle x) rfl
    | illegalReservedRsvd op wsel rsvd => exact hanswer (exec_illegalReservedRsvd_of_idle hidle op wsel rsvd) rfl
  · rcases exec_of_busy hidle with ⟨x, hi, hexec⟩ | ⟨hi, hexec⟩
    · exact ⟨_, hexec, .cancel x hidle hi⟩
    · exact ⟨_, hexec, .wait hidle hi⟩

theorem execEffect_of_next {i : Instr} {s t : State} (h : exec i s = .next t) : ExecEffect i s t := by
  obtain ⟨u, hu, heffect⟩ := exec_effect i s
  cases h.symm.trans hu
  exact heffect

theorem ExecEffect.pbuf {i : Instr} {s t : State} (h : ExecEffect i s t) : t.pbuf = s.pbuf := by cases h <;> rfl

theorem ExecEffect.rx {i : Instr} {s t : State} (h : ExecEffect i s t) : t.rx = s.rx := by cases h <;> rfl

theorem ExecEffect.schedule {i : Instr} {s t : State} (h : ExecEffect i s t) : t.schedule = s.schedule := by
  cases h <;> rfl

/-- A command that the port accepts does not wait there. -/
theorem ExecEffect.port_of_accepts {c : Command} {s t : State} (h : ExecEffect (decode c) s t) (hc : s.accepts c = true) :
    t.port = s.port := by
  cases h with
  | answer | start | ignore | cancel => rfl
  | wait hbusy hne =>
    have habort : Command.isAbort c = true := by simpa [State.accepts, hbusy] using hc
    obtain ⟨x, hx⟩ := (decode_abort_iff c).mpr habort
    exact absurd hx (hne x)

/-- Settles O30: bits 7:2 do not matter, as ABORT cancels whatever they are. -/
theorem abortEndsDecode : Obligations.AbortEndsDecode := by
  intro ignored s hbusy
  rcases exec_of_busy (i := .abort ignored) hbusy with ⟨_, -, hexec⟩ | ⟨hne, -⟩
  · exact hexec
  · exact absurd rfl (hne ignored)

/-- An instruction that an idle block answers writes the log only; to a busy block it writes the port only. -/
theorem ExecEffect.frame_of_answered {i : Instr} {s t : State} {r : Response} (h : ExecEffect i s t)
    (hi : immediateResponse i = some r) :
    if s.phase = .idle then t = { s with log := t.log } else t = { s with port := t.port } := by
  cases h with
  | answer _ hidle _ => rw [if_pos hidle]
  | start width _ hstart => subst hstart; cases width <;> cases hi
  | ignore _ _ habort | cancel _ _ habort => subst habort; cases hi
  | wait hbusy _ =>
    rw [if_neg hbusy]
    rfl

/-- DECODE writes the phase and the width of an idle block; to a busy block it writes the port only. -/
theorem ExecEffect.frame_of_decode {width : Width} {s t : State} (h : ExecEffect (decodeInstr width) s t) :
    if s.phase = .idle then t = { s with phase := t.phase, w := t.w } else t = { s with port := t.port } := by
  cases h with
  | answer r _ hr => cases width <;> cases hr
  | start _ hidle _ =>
    rw [if_pos hidle]
    rfl
  | ignore _ _ habort | cancel _ _ habort => cases width <;> cases habort
  | wait hbusy _ =>
    rw [if_neg hbusy]
    rfl

theorem ExecEffect.frame_of_abort {x : BitVec 6} {s t : State} (h : ExecEffect (.abort x) s t) :
    t = { s with phase := t.phase, log := t.log } := by
  cases h with
  | answer r _ hr => cases hr
  | start width _ hstart => cases width <;> cases hstart
  | ignore | cancel => rfl
  | wait _ hne => exact absurd rfl (hne x)

/-- Settles O38: by the kind of instruction. -/
theorem instructionFrames : Obligations.InstructionFrames := by
  intro i s t hexec
  have heffect := execEffect_of_next hexec
  refine ⟨fun a => by rw [heffect.pbuf], heffect.rx, ?_⟩
  cases i with
  | encodeW1 | encodeW2 | illegalReservedOp | illegalReservedRsvd => exact heffect.frame_of_answered rfl
  | decodeW1 => exact heffect.frame_of_decode (width := .w1)
  | decodeW2 => exact heffect.frame_of_decode (width := .w2)
  | abort x => exact heffect.frame_of_abort

/-! The decoder. -/

/-- The rows of the byte step (spec 42 R132), for the state from whose stream the byte is already removed. -/
inductive ByteRow (b : Byte) (s : State) : State → Prop
  | framing : s.phase = .dSof → b ≠ Config.sof → ByteRow b s (s.raise .framingError)
  | sof : s.phase = .dSof → b = Config.sof → ByteRow b s { s with acc := Config.fcsSeed, phase := .dLen0 }
  | len0 : s.phase = .dLen0 → ByteRow b s
      { s with L := zext16 b, acc := s.acc ^^^ b, phase := if s.w = .w2 then .dLen1 else .dHdr }
  | len1 : s.phase = .dLen1 → ByteRow b s { s with L := s.L ||| (zext16 b <<< 8), acc := s.acc ^^^ b, phase := .dHdr }
  | hdr : s.phase = .dHdr → ByteRow b s { s with hdr := b, acc := s.acc ^^^ b, phase := .dCmd }
  | cmd : s.phase = .dCmd → ByteRow b s
      { s with cmd := b, acc := s.acc ^^^ b, idx := 0, phase := if s.L = 0 then .dFcs else .dPay }
  | pay : s.phase = .dPay → s.idx.toNat < Config.pbufBytes → ByteRow b s
      { s with
        pbuf := Memory.write s.pbuf s.idx.toNat b
        acc := s.acc ^^^ b
        idx := s.idx + 1
        phase := if s.idx + 1 = s.L then .dFcs else .dPay }
  | checksum : s.phase = .dFcs → b ≠ s.acc → ByteRow b s (s.raise .checksumError)
  | ok : s.phase = .dFcs → b = s.acc → ByteRow b s (s.respond (Response.okPacket (packetOf s.hdr s.cmd s.received)))

/-- The byte step takes one of the rows, but for the payload step that finds no index of the buffer. -/
theorem byteStep_cases (b : Byte) {s : State} (hbusy : s.phase ≠ .idle) :
    (∃ t, byteStep b s = .next t ∧ ByteRow b s t) ∨
    (s.phase = .dPay ∧ ¬ s.idx.toNat < Config.pbufBytes ∧ byteStep b s = .fault .pbufIndex) := by
  cases hphase : s.phase with
  | idle => exact absurd hphase hbusy
  | dSof =>
    by_cases hb : b = Config.sof
    · exact .inl ⟨_, hb ▸ byteStep_dSof_of_sof hphase, .sof hphase hb⟩
    · exact .inl ⟨_, byteStep_dSof_of_ne b hphase hb, .framing hphase hb⟩
  | dLen0 => exact .inl ⟨_, byteStep_dLen0 b hphase, .len0 hphase⟩
  | dLen1 => exact .inl ⟨_, byteStep_dLen1 b hphase, .len1 hphase⟩
  | dHdr => exact .inl ⟨_, byteStep_dHdr b hphase, .hdr hphase⟩
  | dCmd => exact .inl ⟨_, byteStep_dCmd b hphase, .cmd hphase⟩
  | dPay =>
    rcases stepPay_cases b s with ⟨hidx, -⟩ | ⟨hidx, hpay⟩
    · exact .inl ⟨_, byteStep_dPay b hphase hidx, .pay hphase hidx⟩
    · exact .inr ⟨rfl, hidx, by simp [byteStep, hphase, hpay]⟩
  | dFcs =>
    by_cases hb : b = s.acc
    · exact .inl ⟨_, byteStep_dFcs_of_eq b hphase hb, .ok hphase hb⟩
    · exact .inl ⟨_, byteStep_dFcs_of_ne b hphase hb, .checksum hphase hb⟩

theorem byteRow_of_next {b : Byte} {s t : State} (hbusy : s.phase ≠ .idle) (h : byteStep b s = .next t) :
    ByteRow b s t := by
  rcases byteStep_cases b hbusy with ⟨u, hu, hrow⟩ | ⟨-, -, hfault⟩
  · cases h.symm.trans hu
    exact hrow
  · cases h.symm.trans hfault

/-! No row touches the stream, the port, the schedule or the count of RESETs. -/

theorem ByteRow.rx {b : Byte} {s t : State} (h : ByteRow b s t) : t.rx = s.rx := by cases h <;> rfl

theorem ByteRow.port {b : Byte} {s t : State} (h : ByteRow b s t) : t.port = s.port := by cases h <;> rfl

theorem ByteRow.schedule {b : Byte} {s t : State} (h : ByteRow b s t) : t.schedule = s.schedule := by cases h <;> rfl

theorem ByteRow.draws {b : Byte} {s t : State} (h : ByteRow b s t) : t.draws = s.draws := by cases h <;> rfl

/-! The block's own step. -/

/-- The state from whose stream the first byte is gone, where the stream is `b :: rest`. -/
abbrev State.leaving (rest : List Byte) (s : State) : State := { s with rx := ⟨rest, s.rx.term⟩ }

/-- Everything the block's own step can do. -/
inductive BlockEffect (s : State) : State → Prop
  | command (c : Command) (waiting : List Command) (t : State) : s.port = c :: waiting → s.accepts c = true →
      exec (decode c) { s with port := waiting } = .next t → BlockEffect s t
  | rest : s.portBlocked = true → s.phase = .idle → BlockEffect s s
  | byte (b : Byte) (rest : List Byte) (t : State) : s.portBlocked = true → s.phase ≠ .idle → s.rx.bytes = b :: rest →
      ByteRow b (s.leaving rest) t → BlockEffect s t
  | hold : s.portBlocked = true → s.phase ≠ .idle → s.rx = ⟨[], .opened⟩ → BlockEffect s s
  | exhausted (code : ResultCode) : s.portBlocked = true → s.phase ≠ .idle → s.rx.bytes = [] →
      s.rx.term.endCode = some code → BlockEffect s (s.raise code)

theorem blockStep_of_idle {s : State} (hport : s.portBlocked = true) (hidle : s.phase = .idle) :
    blockStep s = .next s := by
  rw [blockStep_of_blocked hport]
  exact if_pos hidle

theorem blockStep_of_hold {s : State} (hport : s.portBlocked = true) (hbusy : s.phase ≠ .idle)
    (hrx : s.rx = ⟨[], .opened⟩) : blockStep s = .next s := by
  rw [blockStep_of_blocked hport]
  simp [decoderStep, hbusy, hrx, terminalStep]

/-- Only an open stream lets a read wait. -/
theorem endCode_eq_none_iff {term : RxTerm} : term.endCode = none ↔ term = .opened := by
  cases term <;> simp [RxTerm.endCode]

/-- The block's step does one of these things, or is the payload step that finds no index of the buffer. -/
theorem blockStep_effect (s : State) :
    (∃ t, blockStep s = .next t ∧ BlockEffect s t) ∨
    (s.phase = .dPay ∧ ¬ s.idx.toNat < Config.pbufBytes ∧ blockStep s = .fault .pbufIndex) := by
  rcases blockStep_cases s with ⟨c, waiting, hport, haccepts, hblock⟩ | ⟨hblocked, -⟩
  · obtain ⟨t, hexec, -⟩ := exec_effect (decode c) { s with port := waiting }
    exact .inl ⟨t, hblock.trans hexec, .command c waiting t hport haccepts hexec⟩
  by_cases hidle : s.phase = .idle
  · exact .inl ⟨s, blockStep_of_idle hblocked hidle, .rest hblocked hidle⟩
  cases hbytes : s.rx.bytes with
  | cons b rest =>
    have hblock : blockStep s = byteStep b (s.leaving rest) := blockStep_of_byte hblocked hidle hbytes
    rcases byteStep_cases b (s := s.leaving rest) hidle with ⟨t, hstep, hrow⟩ | ⟨hphase, hidx, hfault⟩
    · exact .inl ⟨t, hblock.trans hstep, .byte b rest t hblocked hidle hbytes hrow⟩
    · exact .inr ⟨hphase, hidx, hblock.trans hfault⟩
  | nil =>
    cases hcode : s.rx.term.endCode with
    | some code =>
      exact .inl ⟨_, blockStep_of_exhausted hblocked hidle hbytes hcode, .exhausted code hblocked hidle hbytes hcode⟩
    | none =>
      have hrx : s.rx = ⟨[], .opened⟩ := by rw [← hbytes, ← endCode_eq_none_iff.mp hcode]
      exact .inl ⟨s, blockStep_of_hold hblocked hidle hrx, .hold hblocked hidle hrx⟩

theorem blockEffect_of_next {s t : State} (h : blockStep s = .next t) : BlockEffect s t := by
  rcases blockStep_effect s with ⟨u, hu, heffect⟩ | ⟨-, -, hfault⟩
  · cases h.symm.trans hu
    exact heffect
  · cases h.symm.trans hfault

/-- Settles O39: only a byte step moves the stream, and it takes one byte. -/
theorem blockConsumesFromTheFront : Obligations.BlockConsumesFromTheFront := by
  intro s t hblock
  cases blockEffect_of_next hblock with
  | command c waiting _ _ _ hexec => exact .inl (execEffect_of_next hexec).rx
  | byte b rest _ _ hbusy hbytes hrow =>
    exact .inr ⟨b, by rw [hrow.rx, hbytes], by rw [hrow.rx], hbusy, hrow.port⟩
  | rest | hold | exhausted => exact .inl rfl

/-! The step of the machine. -/

/-- The move that the next step makes: the head of the schedule, or the block's own once the schedule is used up. -/
def State.moveNow (s : State) : Move := s.schedule.headD .block

/-- The state on which the next step makes its move. -/
abbrev State.moved (s : State) : State := { s with schedule := s.schedule.tail }

theorem step_eq_runMove (s : State) : step s = runMove s.moveNow s.moved := by
  rcases step_cases s with ⟨hstep, hschedule⟩ | ⟨m, ms, hschedule, hstep⟩
  · have hmoved : s.moved = s := by cases s; cases hschedule; rfl
    rw [hstep, hmoved, State.moveNow, hschedule]
    rfl
  · rw [hstep, State.moveNow, State.moved, hschedule]
    rfl

theorem head?_of_moveNow {s : State} {m : Move} (h : s.moveNow = m) (hm : m ≠ .block) : s.schedule.head? = some m := by
  unfold State.moveNow at h
  cases hs : s.schedule with
  | nil => rw [hs] at h; exact absurd h.symm hm
  | cons m' ms => rw [hs] at h; exact congrArg some h

theorem moveNow_of_head? {s : State} {m : Move} (h : s.schedule.head? = some m) : s.moveNow = m := by
  rw [State.moveNow, List.headD_eq_head?_getD, h, Option.getD_some]

/-- Everything a move can do. -/
inductive MoveEffect (m : Move) (s : State) : State → Prop
  | block (t : State) : m = .block → blockStep s = .next t → MoveEffect m s t
  | run (c : Command) (t : State) : m = .issue c → s.accepts c = true → exec (decode c) s = .next t → MoveEffect m s t
  | wait (c : Command) : m = .issue c → Command.isAbort c = false → MoveEffect m s (s.holdAtPort c)
  | reset : m = .reset → MoveEffect m s s.applyReset
  | stream (rx : RxStream) : m ≠ .block → (∀ c, m ≠ .issue c) → MoveEffect m s { s with rx := rx }

theorem accepts_of_abort_or_idle {c : Command} {s : State} (h : Command.isAbort c = true ∨ s.phase = .idle) :
    s.accepts c = true := by
  simpa [State.accepts] using h

/-- A move with a condition was made: the condition holds. -/
theorem of_guarded_next {c : Prop} [Decidable c] {u t : State} {r : Refusal}
    (h : (if c then .next u else .refused r : Result) = .next t) : c ∧ t = u := by
  split at h
  · cases h
    exact ⟨‹_›, rfl⟩
  · cases h

theorem moveEffect_of_next {m : Move} {s t : State} (h : runMove m s = .next t) : MoveEffect m s t := by
  cases m with
  | block => exact .block t rfl h
  | issue c =>
    rcases issue_cases c s with ⟨hc, hexec⟩ | ⟨hc, hwait⟩
    · exact .run c t rfl (accepts_of_abort_or_idle (hc.imp_right And.left)) (hexec.symm.trans h)
    · cases hwait.symm.trans h
      exact .wait c rfl hc
  | push | close | fail | reopen =>
    obtain ⟨-, rfl⟩ := of_guarded_next h
    exact .stream _ nofun nofun
  | reset =>
    cases h
    exact .reset rfl
  | txWrite | readLog | otherRead =>
    cases h
    exact .stream _ nofun nofun

theorem moveEffect_of_step {s t : State} (h : step s = .next t) : MoveEffect s.moveNow s.moved t :=
  moveEffect_of_next ((step_eq_runMove s).symm.trans h)

/-! The command port. -/

/-- A command that waits at the front of the port is taken by the block's step where the port accepts it. -/
theorem blockStep_of_accepted {c : Command} {waiting : List Command} {s : State} (hport : s.port = c :: waiting)
    (hc : s.accepts c = true) : blockStep s = exec (decode c) { s with port := waiting } := by
  simp [blockStep, hport, hc]

/-- A command that the host issues to a port that takes it at once. -/
theorem issue_of_taken {c : Command} {s : State} (h : Command.isAbort c = true ∨ (s.phase = .idle ∧ s.port = [])) :
    issue c s = exec (decode c) s := by
  unfold issue
  split
  · rfl
  · next hc => rw [if_pos (h.resolve_left hc)]

/-- Settles O35: ABORT is told apart by OP, all else by whether the block is idle. -/
theorem portReadiness : Obligations.PortReadiness := by
  refine ⟨fun c s hc hbusy => ?waits, fun i s hi hbusy => ?instruction, fun c s hidle hport => ?issued,
    fun c waiting s hidle hport => ?oldest, fun c s hc => ?abort⟩
  case waits =>
    rcases issue_cases c s with ⟨hor, -⟩ | ⟨-, hwait⟩
    · rw [hc] at hor
      exact absurd (hor.resolve_left nofun).1 hbusy
    · exact hwait
  case instruction =>
    rcases exec_of_busy (i := i) hbusy with ⟨x, rfl, -⟩ | ⟨-, hexec⟩
    · exact absurd rfl (hi x)
    · exact hexec
  case issued => exact issue_of_idle hidle c hport
  case oldest => exact blockStep_of_accepted hport (accepts_of_abort_or_idle (.inr hidle))
  case abort =>
    have hdecode := decode_of_abort c.pkt hc
    have habort : Command.isAbort c = true := (decode_abort_iff c).mp ⟨_, hdecode⟩
    exact ⟨_, (issue_of_taken (.inl habort)).trans (congrArg (exec · s) hdecode)⟩

/-- Settles O37: the step makes the next move, and these moves run the command. -/
theorem stepRunsDecodedCommand : Obligations.StepRunsDecodedCommand := by
  refine ⟨fun c ms s hschedule hc => ?issued, fun c waiting s hschedule hport hc => ?oldest,
    fun m ms s hschedule => step_of_schedule hschedule, fun s hschedule => step_of_no_schedule hschedule⟩
  case issued => exact (step_of_schedule hschedule).trans (issue_of_taken (s := { s with schedule := ms }) hc)
  case oldest => exact (step_of_no_schedule hschedule).trans (blockStep_of_accepted hport hc)

/-- The queue after a step: as it was, one command longer, or without its oldest command, which was run. -/
theorem port_of_step {s t : State} (h : step s = .next t) :
    t.port = s.port ∨
    (∃ c, s.moveNow = .issue c ∧ Command.isAbort c = false ∧ t.port = s.port ++ [c]) ∨
    (∃ c, s.port = c :: t.port ∧ s.accepts c = true ∧ exec (decode c) { s.moved with port := t.port } = .next t) := by
  cases moveEffect_of_step h with
  | block _ _ hblock =>
    cases blockEffect_of_next hblock with
    | command c waiting _ hport hc hexec =>
      obtain rfl : t.port = waiting := (execEffect_of_next hexec).port_of_accepts hc
      exact .inr (.inr ⟨c, hport, hc, hexec⟩)
    | byte _ _ _ _ _ _ hrow => exact .inl hrow.port
    | rest | hold | exhausted => exact .inl rfl
  | run c _ _ hc hexec => exact .inl ((execEffect_of_next hexec).port_of_accepts hc)
  | wait c hm hc => exact .inr (.inl ⟨c, hm, hc, rfl⟩)
  | reset | stream => exact .inl rfl

/-- A command that the host issues is run in that step or waits behind all others. -/
theorem port_of_issue {s t : State} {c : Command} (h : step s = .next t) (hm : s.moveNow = .issue c) :
    t.port = s.port ++ [c] ∨ (t.port = s.port ∧ exec (decode c) s.moved = .next t) := by
  have heffect := moveEffect_of_step h
  rw [hm] at heffect
  cases heffect with
  | block _ hblock => cases hblock
  | run _ _ hissue hc hexec =>
    cases hissue
    exact .inr ⟨(execEffect_of_next hexec).port_of_accepts hc, hexec⟩
  | wait _ hissue =>
    cases hissue
    exact .inl rfl
  | reset hreset => cases hreset
  | stream _ _ hne => exact absurd rfl (hne c)

theorem port_of_reset {s t : State} (h : step s = .next t) (hm : s.moveNow = .reset) : t.port = s.port := by
  rw [step_eq_runMove, hm] at h
  cases h
  rfl

/-- Settles O36: by what the step does to the queue. -/
theorem waitingCommandsKeepOrder : Obligations.WaitingCommandsKeepOrder := by
  refine fun s t hstep => ⟨?queue, fun c hissue => port_of_issue hstep (moveNow_of_head? hissue),
    fun hreset => port_of_reset hstep (moveNow_of_head? hreset)⟩
  rcases port_of_step hstep with hsame | ⟨c, hm, -, hlonger⟩ | ⟨c, hport, hc, hexec⟩
  · exact .inl hsame
  · exact .inr (.inl ⟨c, head?_of_moveNow hm nofun, hlonger⟩)
  · exact .inr (.inr ⟨c, hport, hc, hexec⟩)

/-! RESET and the moves on the stream. -/

/-- Settles O42: after RESET the block is idle, and an idle block accepts every command. -/
theorem resetInput : Obligations.ResetInput := by
  intro s ms hschedule
  refine ⟨_, step_of_schedule hschedule, rfl, rfl, rfl, rfl, rfl, fun c hport => issue_of_idle rfl c hport,
    fun c waiting hport => blockStep_of_accepted hport (accepts_of_abort_or_idle (.inr rfl))⟩

/-- Settles O43: the condition of each move, where it has one, and the move. -/
theorem transportMoves : Obligations.TransportMoves := by
  refine fun s => ⟨fun hopen => ?opened, fun hclosed => ⟨fun bs => if_neg hclosed, if_neg hclosed, if_neg hclosed⟩,
    fun hidle => if_pos hidle, fun hbusy => if_neg hbusy, fun f => rfl, rfl, rfl⟩
  have hpush (bs : List Byte) : runMove (.push bs) s = .next { s with rx := ⟨s.rx.bytes ++ bs, .opened⟩ } := by
    rw [← hopen]
    exact if_pos hopen
  exact ⟨hpush, if_pos hopen, if_pos hopen⟩

end Sys2Proof.Machine
end

section
/-! PROOFS. The responses of a step, each with its cause and the stream that is left (spec 60 R171 to R179): at most one in a
step, and no code without its cause. -/

namespace Sys2Proof.Machine

open Sys2Proof

/-- A command that the next step can take: the one the host issues, or the oldest that waits at the port. -/
def State.Presented (s : State) (c : Command) : Prop := s.schedule.head? = some (.issue c) ∨ s.port.head? = some c

/-- Everything a step can answer: the response, and the stream that it leaves. -/
inductive State.Answers (s : State) : Response → RxStream → Prop
  | immediate (c : Command) (r : Response) : s.Presented c → s.phase = .idle → immediateResponse (decode c) = some r →
      s.Answers r s.rx
  | cancelled (c : Command) : s.Presented c → s.phase ≠ .idle → Command.isAbort c = true →
      s.Answers (Response.error .cancelled) s.rx
  | framing (b : Byte) (rest : List Byte) : s.phase = .dSof → s.rx.bytes = b :: rest → b ≠ Config.sof →
      s.Answers (Response.error .framingError) ⟨rest, s.rx.term⟩
  | checksum (b : Byte) (rest : List Byte) : s.phase = .dFcs → s.rx.bytes = b :: rest → b ≠ s.acc →
      s.Answers (Response.error .checksumError) ⟨rest, s.rx.term⟩
  | packet (rest : List Byte) : s.phase = .dFcs → s.rx.bytes = s.acc :: rest →
      s.Answers (Response.okPacket (packetOf s.hdr s.cmd s.received)) ⟨rest, s.rx.term⟩
  | exhausted (code : ResultCode) : s.phase ≠ .idle → s.rx.bytes = [] → s.rx.term.endCode = some code →
      s.Answers (Response.error code) s.rx

/-- From `s` to `t` nothing was answered, or one response was, and then the block is idle. -/
def State.AnswersAtMostOnce (s t : State) : Prop :=
  t.log = s.log ∨ ∃ r, t.log = s.log ++ [r] ∧ t.phase = .idle ∧ s.Answers r t.rx

/-- A presented command that is run on a state `u` with the phase, stream and log of `s`. -/
theorem answersAtMostOnce_of_exec {c : Command} {s u t : State} (hc : s.Presented c) (h : exec (decode c) u = .next t)
    (hphase : u.phase = s.phase) (hrx : u.rx = s.rx) (hlog : u.log = s.log) : s.AnswersAtMostOnce t := by
  unfold State.AnswersAtMostOnce
  rw [← hlog]
  cases execEffect_of_next h with
  | answer r hidle hr => exact .inr ⟨r, rfl, hidle, hrx ▸ .immediate c r hc (hphase ▸ hidle) hr⟩
  | cancel x hbusy hx =>
    have habort : Command.isAbort c = true := (decode_abort_iff c).mp ⟨x, hx⟩
    exact .inr ⟨_, rfl, rfl, hrx ▸ .cancelled c hc (hphase ▸ hbusy) habort⟩
  | start | ignore | wait => exact .inl rfl

theorem answersAtMostOnce_of_byteRow {b : Byte} {rest : List Byte} {s t : State} (hbytes : s.rx.bytes = b :: rest)
    (h : ByteRow b (s.moved.leaving rest) t) : s.AnswersAtMostOnce t := by
  cases h with
  | framing hphase hb => exact .inr ⟨_, rfl, rfl, .framing b rest hphase hbytes hb⟩
  | checksum hphase hb => exact .inr ⟨_, rfl, rfl, .checksum b rest hphase hbytes hb⟩
  | ok hphase hb => exact .inr ⟨_, rfl, rfl, .packet rest hphase (hb ▸ hbytes)⟩
  | sof | len0 | len1 | hdr | cmd | pay => exact .inl rfl

theorem answersAtMostOnce_of_step {s t : State} (h : step s = .next t) : s.AnswersAtMostOnce t := by
  cases moveEffect_of_step h with
  | block _ _ hblock =>
    cases blockEffect_of_next hblock with
    | command c waiting _ hport _ hexec =>
      exact answersAtMostOnce_of_exec (.inr (congrArg List.head? hport)) hexec rfl rfl rfl
    | byte b rest _ _ _ hbytes hrow => exact answersAtMostOnce_of_byteRow hbytes hrow
    | exhausted code _ hbusy hbytes hcode => exact .inr ⟨_, rfl, rfl, .exhausted code hbusy hbytes hcode⟩
    | rest | hold => exact .inl rfl
  | run c _ hm _ hexec => exact answersAtMostOnce_of_exec (.inl (head?_of_moveNow hm nofun)) hexec rfl rfl rfl
  | wait | reset | stream => exact .inl rfl

/-- Settles O40: what a step answers, without the cause. -/
theorem oneResponsePerStep : Obligations.OneResponsePerStep := by
  intro s t hstep
  exact (answersAtMostOnce_of_step hstep).imp_right fun ⟨r, hlog, hidle, _⟩ => ⟨r, hlog, hidle⟩

/-! The cause of each code. -/

/-- The codes of ENCODE: FRAME_TOO_LARGE above the bound, and OK otherwise. -/
theorem encodeResponse_cases (width : Width) (p : Packet) :
    ((encodeResponse width p).code = .frameTooLarge ∧ p.payload.length > encMaxPayload width) ∨
    (encodeResponse width p).code = .ok := by
  cases h : tooLarge width p with
  | true =>
    have hlong := (add_two_gt_lengthMax_iff width _).mp ((tooLarge_eq_true_iff width p).mp h)
    exact .inl ⟨by simp [encodeResponse, h, Response.error], hlong⟩
  | false => exact .inr (by simp [encodeResponse, h, Response.okFrame])

/-- The words that are reserved: OP = 00, or a reserved bit beside OP = 01 or 10 (spec 30 R68). -/
def reservedWord (word : Byte) : Prop :=
  word.toNat % 4 = 0 ∨ ((word.toNat % 4 = 1 ∨ word.toNat % 4 = 2) ∧ word.toNat / 8 ≠ 0)

/-- What an idle block answers at once, and to which commands. -/
theorem immediateResponse_cases {c : Command} {r : Response} (h : immediateResponse (decode c) = some r) :
    (∃ p, decode c = .encodeW1 p ∧ r = encodeResponse .w1 p) ∨
    (∃ p, decode c = .encodeW2 p ∧ r = encodeResponse .w2 p) ∨
    (reservedWord c.word ∧ r = Response.error .illegalCommand) := by
  have hrsvd {word : Byte} (hr : rsvdField word ≠ 0) : word.toNat / 8 ≠ 0 := mt (rsvdField_eq_zero_iff word).mpr hr
  rcases decode_cases c with ⟨hop, hc⟩ | ⟨hop, hc⟩ | ⟨hop, hc⟩ | ⟨-, hc⟩
  · rw [hc] at h
    cases h
    exact .inr (.inr ⟨.inl ((opField_eq_iff c.word 0b00#2).mp hop), rfl⟩)
  · have hmod : c.word.toNat % 4 = 1 := (opField_eq_iff c.word 0b01#2).mp hop
    rcases decodeOp01_cases c with ⟨-, -, hd⟩ | ⟨-, -, hd⟩ | ⟨hr, hd⟩ <;> rw [hc, hd] at h ⊢ <;> cases h
    · exact .inr (.inl ⟨_, rfl, rfl⟩)
    · exact .inl ⟨_, rfl, rfl⟩
    · exact .inr (.inr ⟨.inr ⟨.inl hmod, hrsvd hr⟩, rfl⟩)
  · have hmod : c.word.toNat % 4 = 2 := (opField_eq_iff c.word 0b10#2).mp hop
    rcases decodeOp10_cases c with ⟨-, -, hd⟩ | ⟨-, -, hd⟩ | ⟨hr, hd⟩ <;> rw [hc, hd] at h ⊢ <;> cases h
    exact .inr (.inr ⟨.inr ⟨.inr hmod, hrsvd hr⟩, rfl⟩)
  · rw [hc] at h
    cases h

/-- The condition under which an empty stream ends a DECODE with a code. -/
theorem endCode_eq_some_iff {term : RxTerm} {code : ResultCode} :
    term.endCode = some code ↔ (term = .closed ∧ code = .endOfStream) ∨ (term = .errored ∧ code = .ioError) := by
  cases term <;> simp [RxTerm.endCode, eq_comm]

/-- Settles O41: by the cause of the response. -/
theorem codesHaveTheirCauses : Obligations.CodesHaveTheirCauses := by
  intro s t r hstep hlog
  have hanswer : s.Answers r t.rx := by
    rcases answersAtMostOnce_of_step hstep with hsame | ⟨r', hlog', -, hanswer⟩
    · rw [hlog] at hsame
      exact absurd hsame (by simp)
    · obtain rfl : r = r' := by simpa using hlog.symm.trans hlog'
      exact hanswer
  generalize t.rx = left at hanswer ⊢
  cases hanswer with
  | immediate c _ hc hidle hr =>
    rcases immediateResponse_cases hr with ⟨p, hp, rfl⟩ | ⟨p, hp, rfl⟩ | ⟨hword, rfl⟩
    · rcases encodeResponse_cases .w1 p with ⟨hcode, hlong⟩ | hcode <;> rw [hcode]
      · exact ⟨hidle, rfl, c, p, hc, .inl ⟨hp, hlong⟩⟩
      · exact .inr ⟨hidle, rfl⟩
    · rcases encodeResponse_cases .w2 p with ⟨hcode, hlong⟩ | hcode <;> rw [hcode]
      · exact ⟨hidle, rfl, c, p, hc, .inr ⟨hp, hlong⟩⟩
      · exact .inr ⟨hidle, rfl⟩
    · exact ⟨hidle, rfl, c, hc, hword⟩
  | cancelled c hc hbusy habort => exact ⟨hbusy, rfl, c, hc, habort⟩
  | framing b rest hphase hbytes hb => exact ⟨hphase, b, hbytes, hb⟩
  | checksum b rest hphase hbytes hb => exact ⟨hphase, b, hbytes, hb⟩
  | packet rest hphase hbytes => exact .inl ⟨hphase, hbytes⟩
  | exhausted code hbusy hbytes hcode =>
    rcases endCode_eq_some_iff.mp hcode with ⟨hterm, rfl⟩ | ⟨hterm, rfl⟩
    · exact ⟨hbusy, by rw [← hbytes, ← hterm], rfl⟩
    · exact ⟨hbusy, by rw [← hbytes, ← hterm], rfl⟩

end Sys2Proof.Machine
end

section
/-! PROOFS. The invariant: it holds after reset, every step keeps it, part by part, and under it no step stops by itself
(spec 10 R24, R26, R28; 42 R132, R134; 60 R181). -/

namespace Sys2Proof.Machine

open Sys2Proof

/-! The payload buffer. -/

/-- Settles O16: the two cases of what is read after a write. -/
theorem payloadBufferReadAfterWrite : Obligations.PayloadBufferReadAfterWrite :=
  fun _ a b hm => ⟨(Memory.read_write hm a b a).trans (if_pos rfl),
    fun a' ha => (Memory.read_write hm a b a').trans (if_neg ha)⟩

theorem pbufInv_write {s : State} (hs : s.PbufInv) {a : Nat} (ha : a < Config.pbufBytes) (b : Byte) :
    { s with pbuf := Memory.write s.pbuf a b }.PbufInv := by
  obtain ⟨hwf, hbound⟩ := hs
  refine ⟨Memory.wf_write a b hwf, fun c hc => ?_⟩
  rcases Memory.mem_write hc with heq | hmem
  · exact heq ▸ ha
  · exact hbound c hmem

theorem pbufInv_applyReset (s : State) : s.applyReset.PbufInv := by
  refine ⟨Memory.wf_fill _ 0, fun c hc => (Memory.mem_fill hc).trans_le ?_⟩
  rw [Nat.zero_add, List.length_take]
  exact Nat.min_le_left _ _

theorem ByteRow.wf_pbuf {b : Byte} {s t : State} (h : ByteRow b s t) (hs : s.pbuf.wf = true) : t.pbuf.wf = true := by
  cases h with
  | pay => exact Memory.wf_write _ b hs
  | framing | sof | len0 | len1 | hdr | cmd | checksum | ok => exact hs

theorem ByteRow.pbufInv {b : Byte} {s t : State} (h : ByteRow b s t) (hs : s.PbufInv) : t.PbufInv := by
  cases h with
  | pay _ hidx => exact pbufInv_write hs hidx b
  | framing | sof | len0 | len1 | hdr | cmd | checksum | ok => exact hs

theorem ExecEffect.pbufInv {i : Instr} {s t : State} (h : ExecEffect i s t) (hs : s.PbufInv) : t.PbufInv := by
  rwa [State.PbufInv, h.pbuf]

theorem pbufInv_of_step {s t : State} (h : step s = .next t) (hs : s.PbufInv) : t.PbufInv := by
  cases moveEffect_of_step h with
  | block _ _ hblock =>
    cases blockEffect_of_next hblock with
    | command _ _ _ _ _ hexec => exact (execEffect_of_next hexec).pbufInv hs
    | byte _ _ _ _ _ _ hrow => exact hrow.pbufInv hs
    | rest | hold | exhausted => exact hs
  | run _ _ _ _ hexec => exact (execEffect_of_next hexec).pbufInv hs
  | reset => exact pbufInv_applyReset _
  | wait | stream => exact hs

/-! The decoder's registers. -/

/-- Of an idle block, and of one that waits for SOF or for the first LENGTH byte, nothing is claimed. -/
theorem decoderInv_of_early {s : State} (h : s.phase = .idle ∨ s.phase = .dSof ∨ s.phase = .dLen0) : s.DecoderInv := by
  rcases h with h | h | h <;> simp [State.DecoderInv, h]

/-- A payload index that still has a byte to come is an index of the buffer. -/
theorem idx_lt_pbufBytes {s : State} (h : s.idx.toNat < s.L.toNat) : s.idx.toNat < Config.pbufBytes := by
  have := s.L.isLt
  unfold Config.pbufBytes
  omega

theorem toNat_idx_succ {s : State} (h : s.idx.toNat < Config.pbufBytes) : (s.idx + 1).toNat = s.idx.toNat + 1 := by
  have hlt : s.idx.toNat + 1 < 2 ^ 16 := by
    unfold Config.pbufBytes at h
    omega
  rw [BitVec.toNat_add]
  exact Nat.mod_eq_of_lt hlt

/-- With HEADER and COMMAND read, the phase says whether the payload is complete. -/
theorem decoderInv_of_payload {s : State} (hphase : s.phase = if s.idx = s.L then .dFcs else .dPay)
    (hidx : s.idx.toNat ≤ s.L.toNat) (hw1 : s.w = .w1 → s.L.toNat < 256) : s.DecoderInv := by
  by_cases hlast : s.idx = s.L
  · rw [if_pos hlast] at hphase
    simpa [State.DecoderInv, hphase, hlast] using hw1
  · have hmore : s.idx.toNat < s.L.toNat := lt_of_le_of_ne hidx fun h => hlast (BitVec.eq_of_toNat_eq h)
    rw [if_neg hlast] at hphase
    simpa [State.DecoderInv, hphase, hmore] using hw1

/-- After COMMAND, with no payload byte received. -/
theorem payload_phase_zero (L : Half) : (if L = 0 then Phase.dFcs else .dPay) = if 0 = L then .dFcs else .dPay := by
  simp only [eq_comm]

theorem toNat_zext16 (b : Byte) : (zext16 b).toNat = b.toNat := by
  rw [← fromLe_one, toNat_fromLe_one]

theorem ByteRow.decoderInv {b : Byte} {s t : State} (h : ByteRow b s t) (hs : s.DecoderInv) : t.DecoderInv := by
  obtain ⟨hlen1, hw1, hpay, -⟩ := hs
  cases h with
  | framing | checksum | ok => exact decoderInv_of_early (.inl rfl)
  | sof => exact decoderInv_of_early (.inr (.inr rfl))
  | len0 =>
    have hbyte : (zext16 b).toNat < 256 := toNat_zext16 b ▸ b.isLt
    cases s.w <;> simp [State.DecoderInv, hbyte]
  | len1 hphase =>
    obtain ⟨hw, -⟩ := hlen1 hphase
    simp [State.DecoderInv, hw]
  | hdr hphase => simpa [State.DecoderInv, hphase] using hw1
  | cmd hphase =>
    exact decoderInv_of_payload (payload_phase_zero s.L) (Nat.zero_le _) fun hw => hw1 hw (.inr (.inl hphase))
  | pay hphase hidx =>
    have hle : (s.idx + 1).toNat ≤ s.L.toNat := toNat_idx_succ hidx ▸ hpay hphase
    exact decoderInv_of_payload rfl hle fun hw => hw1 hw (.inr (.inr (.inl hphase)))

theorem ExecEffect.decoderInv {i : Instr} {s t : State} (h : ExecEffect i s t) (hs : s.DecoderInv) : t.DecoderInv := by
  cases h with
  | start => exact decoderInv_of_early (.inr (.inl rfl))
  | cancel => exact decoderInv_of_early (.inl rfl)
  | answer | ignore | wait => exact hs

theorem BlockEffect.decoderInv {s t : State} (h : BlockEffect s t) (hs : s.DecoderInv) : t.DecoderInv := by
  cases h with
  | command _ _ _ _ _ hexec => exact (execEffect_of_next hexec).decoderInv hs
  | byte _ _ _ _ _ _ hrow => exact hrow.decoderInv hs
  | exhausted => exact decoderInv_of_early (.inl rfl)
  | rest | hold => exact hs

theorem decoderInv_of_step {s t : State} (h : step s = .next t) (hs : s.DecoderInv) : t.DecoderInv := by
  cases moveEffect_of_step h with
  | block _ _ hblock => exact (blockEffect_of_next hblock).decoderInv hs
  | run _ _ _ _ hexec => exact (execEffect_of_next hexec).decoderInv hs
  | reset => exact decoderInv_of_early (.inl rfl)
  | wait | stream => exact hs

/-! The command port. -/

/-- What comes to wait is no ABORT, and nothing else changes which commands wait but that some leave. -/
theorem portInv_of_step {s t : State} (h : step s = .next t) (hs : s.PortInv) : t.PortInv := by
  intro c hc
  rcases port_of_step h with hsame | ⟨d, -, hd, hlonger⟩ | ⟨d, hport, -, -⟩
  · exact hs c (hsame ▸ hc)
  · rcases List.mem_append.mp (hlonger ▸ hc) with hold | hnew
    · exact hs c hold
    · exact List.mem_singleton.mp hnew ▸ hd
  · exact hs c (hport ▸ List.mem_cons_of_mem d hc)

/-! The response log. -/

theorem shaped_error {code : ResultCode} (h : code ≠ .ok) : (Response.error code).shaped = true := by
  cases code with
  | ok => exact absurd rfl h
  | framingError | checksumError | endOfStream | ioError | frameTooLarge | cancelled | illegalCommand => rfl

/-- A received Packet has its fields in place, and LENGTH bounds its payload. -/
theorem shaped_okPacket (s : State) : (Response.okPacket (packetOf s.hdr s.cmd s.received)).shaped = true := by
  have hlength : s.received.length ≤ decMaxPayload .w2 := by
    rw [State.received, Memory.length_slice]
    exact Nat.le_of_lt_succ s.L.isLt
  have hplace : inPlace (packetOf s.hdr s.cmd s.received) = true := by
    simp [inPlace, packetOf, hdrMessageType_inPlace, hdrSubSystem_inPlace]
  exact Bool.and_eq_true_iff.mpr ⟨hplace, decide_eq_true hlength⟩

theorem frameShaped_packetFrame {width : Width} {p : Packet} (h : p.payload.length ≤ encMaxPayload width) :
    frameShaped (packetFrame width p) = true := by
  have hhead : (packetFrame width p).head? = some Config.sof := rfl
  have hfold : foldXor 0x00#8 (packetFrame width p).tail = 0xFF#8 := foldXor_frameAround_tail _
  have hbounds : 5 ≤ (packetFrame width p).length ∧ (packetFrame width p).length ≤ frameMax .w2 := by
    rw [length_packetFrame]
    cases width <;> simp only [encMaxPayload, frameMax, Width.bytes, Config.cmdBytes] at h ⊢ <;> omega
  simpa [frameShaped, hhead, hfold, -length_packetFrame] using hbounds

theorem shaped_encodeResponse (width : Width) (p : Packet) : (encodeResponse width p).shaped = true := by
  cases h : tooLarge width p with
  | true => simp [encodeResponse, h, shaped_error]
  | false =>
    have hframe := frameShaped_packetFrame ((tooLarge_eq_false_iff width p).mp h)
    simp [encodeResponse, h, Response.okFrame, Response.shaped, hframe]

theorem State.Answers.shaped {s : State} {r : Response} {rx : RxStream} (h : s.Answers r rx) : r.shaped = true := by
  cases h with
  | immediate c _ _ _ hr =>
    rcases immediateResponse_cases hr with ⟨p, -, rfl⟩ | ⟨p, -, rfl⟩ | ⟨-, rfl⟩
    · exact shaped_encodeResponse .w1 p
    · exact shaped_encodeResponse .w2 p
    · exact shaped_error nofun
  | cancelled | framing | checksum => exact shaped_error nofun
  | packet => exact shaped_okPacket s
  | exhausted code _ _ hcode =>
    rcases endCode_eq_some_iff.mp hcode with ⟨-, rfl⟩ | ⟨-, rfl⟩ <;> exact shaped_error nofun

theorem logInv_of_step {s t : State} (h : step s = .next t) (hs : s.LogInv) : t.LogInv := by
  intro r hr
  rcases answersAtMostOnce_of_step h with hsame | ⟨r', hlog, -, hanswer⟩
  · exact hs r (hsame ▸ hr)
  · rcases List.mem_append.mp (hlog ▸ hr) with hold | hnew
    · exact hs r hold
    · exact List.mem_singleton.mp hnew ▸ hanswer.shaped

/-! The two statements about the invariant. -/

/-- Settles O44: an idle block with an empty buffer, port and log. -/
theorem resetMeetsInv : Obligations.ResetMeetsInv :=
  ⟨⟨Memory.wf_nil, nofun⟩, decoderInv_of_early (.inl rfl), nofun, nofun⟩

/-- Settles O45: each part of the invariant is kept by itself. -/
theorem stepKeepsInv : Obligations.StepKeepsInv := by
  rintro s t ⟨hpbuf, hdecoder, hport, hlog⟩ hstep
  exact ⟨pbufInv_of_step hstep hpbuf, decoderInv_of_step hstep hdecoder, portInv_of_step hstep hport,
    logInv_of_step hstep hlog⟩

/-! No stop under the invariant. -/

theorem blockStep_next {s : State} (hs : s.DecoderInv) : ∃ t, blockStep s = .next t := by
  obtain ⟨-, -, hpay, -⟩ := hs
  rcases blockStep_effect s with ⟨t, hblock, -⟩ | ⟨hphase, hidx, -⟩
  · exact ⟨t, hblock⟩
  · exact absurd (idx_lt_pbufBytes (hpay hphase)) hidx

theorem issue_next (c : Command) (s : State) : ∃ t, issue c s = .next t := by
  rcases issue_cases c s with ⟨-, hexec⟩ | ⟨-, hwait⟩
  · obtain ⟨t, ht, -⟩ := exec_effect (decode c) s
    exact ⟨t, hexec.trans ht⟩
  · exact ⟨_, hwait⟩

theorem runMove_next {m : Move} {s : State} (hs : s.DecoderInv) (hm : Move.enabled m s = true) :
    ∃ t, runMove m s = .next t := by
  cases m with
  | block => exact blockStep_next hs
  | issue c => exact issue_next c s
  | push | close | fail | reopen => exact ⟨_, if_pos (beq_iff_eq.mp hm)⟩
  | reset | txWrite | readLog | otherRead => exact ⟨_, rfl⟩

/-- A move that may not be made is refused: RX.REOPEN for its own reason, the moves of the transport for theirs. -/
theorem runMove_refused {m : Move} {s : State} (hm : Move.enabled m s = false) :
    (m = .reopen → runMove m s = .refused .reopenWhileBusy) ∧ (m ≠ .reopen → runMove m s = .refused .streamNotOpen) := by
  cases m with
  | push | close | fail => exact ⟨nofun, fun _ => if_neg (beq_eq_false_iff_ne.mp hm)⟩
  | reopen => exact ⟨fun _ => if_neg (beq_eq_false_iff_ne.mp hm), fun h => absurd rfl h⟩
  | block | issue | reset | txWrite | readLog | otherRead => cases hm

theorem nextMoveEnabled_eq (s : State) : s.nextMoveEnabled = Move.enabled s.moveNow s := by
  unfold State.nextMoveEnabled State.moveNow
  cases s.schedule <;> rfl

theorem enabled_moved (m : Move) (s : State) : Move.enabled m s.moved = Move.enabled m s := by cases m <;> rfl

theorem portBlocked_of_empty {s : State} (h : s.port = []) : s.portBlocked = true := by simp [State.portBlocked, h]

/-- Settles O46: a move that may be made is made, one that may not is refused, and a block with no enabled step stays. -/
theorem stepNeverStopsByItself : Obligations.StepNeverStopsByItself := by
  rintro s ⟨-, hdecoder, -, -⟩
  refine ⟨fun henabled => ?next, fun m ms hschedule hm => ?refused, fun hstill => ?kept⟩
  case next =>
    rw [nextMoveEnabled_eq, ← enabled_moved] at henabled
    obtain ⟨t, ht⟩ := runMove_next (s := s.moved) hdecoder henabled
    exact ⟨t, (step_eq_runMove s).trans ht⟩
  case refused =>
    rw [step_of_schedule hschedule]
    exact runMove_refused (s := { s with schedule := ms }) (by rw [← hm]; cases m <;> rfl)
  case kept =>
    have hblock : blockStep s = .next s := by
      rcases hstill with ⟨hidle, hport⟩ | ⟨hbusy, hport, hrx⟩
      · exact blockStep_of_idle (portBlocked_of_empty hport) hidle
      · exact blockStep_of_hold hport hbusy hrx
    exact ⟨hblock, fun hschedule => (step_of_no_schedule hschedule).trans hblock⟩

/-- Settles O17: the payload step is the one that can find no index, and the invariant has `idx` below `L`. -/
theorem payloadIndexOutsideBufferStops : Obligations.PayloadIndexOutsideBufferStops := by
  intro s b rest hport hphase hrx hidx
  constructor
  · have hbusy : s.phase ≠ .idle := by simp [hphase]
    rw [blockStep_of_byte hport hbusy hrx]
    rcases byteStep_cases b (s := s.leaving rest) hbusy with ⟨_, -, hrow⟩ | ⟨-, -, hfault⟩
    · cases hrow with
      | pay _ hin => exact absurd hin hidx
      | framing h | sof h | len0 h | len1 h | hdr h | cmd h | checksum h | ok h => cases hphase.symm.trans h
    · exact hfault
  · rintro ⟨-, ⟨-, -, hpay, -⟩, -, -⟩
    exact hidx (idx_lt_pbufBytes (hpay hphase))

/-! The hold (spec 42 R134). -/

theorem runSteps_of_fixed {s : State} (h : step s = .next s) (n : Nat) : runSteps n s = .next s := by
  induction n with
  | zero => rfl
  | succ n ih => rwa [runSteps_succ_of_next n h]

/-- Under the invariant, the block's step on a byte consumes it. -/
theorem blockStep_consumes {s : State} {b : Byte} {rest : List Byte} (hs : s.DecoderInv) (hport : s.portBlocked = true)
    (hbusy : s.phase ≠ .idle) (hrx : s.rx.bytes = b :: rest) :
    ∃ t, blockStep s = .next t ∧ ByteRow b (s.leaving rest) t := by
  obtain ⟨t, ht⟩ := blockStep_next hs
  exact ⟨t, ht, byteRow_of_next hbusy ((blockStep_of_byte hport hbusy hrx).symm.trans ht)⟩

/-- Settles O19: the hold is the block's step on an open, empty stream, and each move makes another step the next one. -/
theorem decoderHolds : Obligations.DecoderHolds := by
  rintro s ⟨-, hdecoder, -, -⟩ hport hbusy hrx
  have hhold : blockStep s = .next s := blockStep_of_hold hport hbusy hrx
  have hopen : s.rx.term = .opened := by rw [hrx]
  have hbytes : s.rx.bytes = [] := by rw [hrx]
  refine ⟨hhold, fun hschedule n => ?holds, fun b rest => ?push, ?close, ?fail, fun c hc => ?abort,
    ⟨_, rfl, rfl, rfl⟩⟩
  case holds => exact runSteps_of_fixed ((step_of_no_schedule hschedule).trans hhold) n
  case push =>
    have hpushed : s.rx.bytes ++ b :: rest = b :: rest := by rw [hbytes, List.nil_append]
    obtain ⟨u, hu, hrow⟩ := blockStep_consumes (s := { s with rx := ⟨s.rx.bytes ++ b :: rest, s.rx.term⟩ })
      hdecoder hport hbusy hpushed
    exact ⟨_, u, if_pos hopen, hu, by rw [hrow.rx, ← hopen]⟩
  case close =>
    exact ⟨_, _, if_pos hopen, blockStep_of_exhausted (s := { s with rx := ⟨s.rx.bytes, .closed⟩ }) hport hbusy hbytes rfl,
      rfl, rfl⟩
  case fail =>
    exact ⟨_, _, if_pos hopen, blockStep_of_exhausted (s := { s with rx := ⟨s.rx.bytes, .errored⟩ }) hport hbusy hbytes rfl,
      rfl, rfl⟩
  case abort =>
    obtain ⟨x, hx⟩ := (decode_abort_iff c).mpr hc
    have hcancel : exec (.abort x) s = .next (s.raise .cancelled) := abortEndsDecode x s hbusy
    refine ⟨_, (issue_of_taken (.inl hc)).trans ((congrArg (exec · s) hx).trans hcancel), rfl, rfl⟩

end Sys2Proof.Machine
end

section
/-! PROOFS. The decoder state machine refines the algorithm of spec 42 R120 (R135): in every phase the registers determine what
the algorithm comes to on the bytes still to be read, and each step of the machine keeps that. -/

namespace Sys2Proof.Machine

open Sys2Proof

/-! An exact read taken byte by byte. -/

section Read

variable (draw : Nat → Nat) (k : List Byte → RxStream → FrameRead)

theorem readExact_zero_andThen (rx : RxStream) : (readExact draw 0 rx).andThen k = k [] rx := by
  simp [readExact, readExactLoop_zero, ExactRead.andThen]

theorem readExact_cons_andThen (n : Nat) (b : Byte) (rest : List Byte) (term : RxTerm) :
    (readExact draw (n + 1) ⟨b :: rest, term⟩).andThen k =
      (readExact draw n ⟨rest, term⟩).andThen fun got rx => k (b :: got) rx := by
  rw [readExact_eq, readExact_eq]
  by_cases h : n ≤ rest.length
  · simp [h, ExactRead.andThen]
  · simp [h, andThen_onExhausted]

theorem readExact_nil_andThen (n : Nat) (term : RxTerm) :
    (readExact draw (n + 1) ⟨[], term⟩).andThen k = FrameRead.onExhausted term := by
  rw [readExact_short draw (Nat.succ_pos n), andThen_onExhausted]

end Read

/-! What a DECODE comes to from the middle of a frame. -/

/-- The answer to HEADER, COMMAND and payload `body`, where `acc` is the checksum of all that was read and `c` the FCS byte. -/
def answerFrom (acc : Byte) (body : List Byte) (c : Byte) : Response :=
  if acc ≠ c then Response.error .checksumError
  else Response.okPacket (packetOf (body.getD 0 0) (body.getD 1 0) (body.drop 2))

theorem answerOf_eq_answerFrom (lenb body : List Byte) (c : Byte) :
    answerOf lenb body c = answerFrom (fcs (lenb ++ body)) body c := rfl

/-- The rest of a DECODE that has read LENGTH and `body`, with `need` bytes of HEADER, COMMAND and payload to come. -/
def bodyOutcome (draw : Nat → Nat) (acc : Byte) (body : List Byte) (need : Nat) (rx : RxStream) : FrameRead :=
  (readExact draw need rx).andThen fun more rx3 =>
    (readExact draw 1 rx3).andThen fun c rx4 =>
      .responded (answerFrom (foldXor acc more) (body ++ more) (c.getD 0 0)) rx4

theorem bodyOutcome_cons (draw : Nat → Nat) (acc : Byte) (body : List Byte) (need : Nat) (b : Byte) (rest : List Byte)
    (term : RxTerm) :
    bodyOutcome draw acc body (need + 1) ⟨b :: rest, term⟩ =
      bodyOutcome draw (acc ^^^ b) (body ++ [b]) need ⟨rest, term⟩ := by
  simp only [bodyOutcome, readExact_cons_andThen, List.append_assoc, List.singleton_append, foldXor]

theorem bodyOutcome_fcs (draw : Nat → Nat) (acc : Byte) (body : List Byte) (c : Byte) (rest : List Byte) (term : RxTerm) :
    bodyOutcome draw acc body 0 ⟨c :: rest, term⟩ = .responded (answerFrom acc body c) ⟨rest, term⟩ := by
  simp only [bodyOutcome, readExact_zero_andThen, readExact_cons_andThen, List.append_nil, foldXor]
  rfl

theorem bodyOutcome_nil (draw : Nat → Nat) (acc : Byte) (body : List Byte) (need : Nat) (term : RxTerm) :
    bodyOutcome draw acc body need ⟨[], term⟩ = FrameRead.onExhausted term := by
  cases need with
  | zero => rw [bodyOutcome, readExact_zero_andThen, readExact_nil_andThen]
  | succ need => rw [bodyOutcome, readExact_nil_andThen]

/-- HEADER, COMMAND and payload as far as they have been read. -/
def State.body (s : State) : List Byte :=
  match s.phase with
  | .idle | .dSof | .dLen0 | .dLen1 | .dHdr => []
  | .dCmd => [s.hdr]
  | .dPay | .dFcs => s.hdr :: s.cmd :: Memory.slice s.pbuf 0 s.idx.toNat

/-- What the algorithm comes to on `rx` from where the registers stand; an idle block has answered already. -/
def State.outcome (draw : Nat → Nat) (s : State) (rx : RxStream) : FrameRead :=
  match s.phase with
  | .idle => s.log.getLast?.elim (.waits rx) (FrameRead.responded · rx)
  | .dSof => decodeFrame draw s.w rx
  | .dLen0 => (readExact draw s.w.bytes rx).andThen fun lenb rx2 =>
      bodyOutcome draw (foldXor s.acc lenb) [] ((fromLe lenb).toNat + Config.cmdBytes) rx2
  | .dLen1 => (readExact draw 1 rx).andThen fun high rx2 =>
      bodyOutcome draw (foldXor s.acc high) [] ((s.L ||| (fromLe high <<< 8)).toNat + Config.cmdBytes) rx2
  | .dHdr | .dCmd | .dPay | .dFcs =>
    bodyOutcome draw s.acc s.body (s.L.toNat + Config.cmdBytes - s.body.length) rx

theorem outcome_of_idle (draw : Nat → Nat) {s : State} {log : List Response} {r : Response} (hphase : s.phase = .idle)
    (hlog : s.log = log ++ [r]) (rx : RxStream) : s.outcome draw rx = .responded r rx := by
  simp [State.outcome, hphase, hlog]

/-- With HEADER and COMMAND read, the phase says whether a payload byte or the FCS is next. -/
theorem outcome_of_payload (draw : Nat → Nat) {s : State} (hphase : s.phase = if s.idx = s.L then .dFcs else .dPay)
    (rx : RxStream) :
    s.outcome draw rx =
      bodyOutcome draw s.acc (s.hdr :: s.cmd :: Memory.slice s.pbuf 0 s.idx.toNat) (s.L.toNat - s.idx.toNat) rx := by
  have hneed : s.L.toNat + Config.cmdBytes - (s.idx.toNat + 1 + 1) = s.L.toNat - s.idx.toNat :=
    Nat.add_sub_add_right _ 2 _
  split at hphase <;> simp [State.outcome, State.body, hphase, hneed]

/-! The commuting diagram: a byte read by the machine is a byte read by the algorithm. -/

theorem decodeFrame_cons_of_ne (draw : Nat → Nat) (width : Width) {b : Byte} (hb : b ≠ Config.sof) (rest : List Byte)
    (term : RxTerm) :
    decodeFrame draw width ⟨b :: rest, term⟩ = .responded (Response.error .framingError) ⟨rest, term⟩ := by
  rw [decodeFrame, readExact_cons_andThen, readExact_zero_andThen]
  exact if_pos hb

theorem decodeFrame_sof (draw : Nat → Nat) (width : Width) (rest : List Byte) (term : RxTerm) :
    decodeFrame draw width ⟨Config.sof :: rest, term⟩ =
      (readExact draw width.bytes ⟨rest, term⟩).andThen fun lenb rx2 =>
        bodyOutcome draw (foldXor Config.fcsSeed lenb) [] ((fromLe lenb).toNat + Config.cmdBytes) rx2 := by
  rw [decodeFrame, readExact_cons_andThen, readExact_zero_andThen]
  simp only [bodyOutcome, answerOf_eq_answerFrom, fcs, foldXor_append, List.nil_append]
  exact if_neg (not_not.mpr rfl)

/-- What lies in the payload buffer once one more byte is stored. -/
theorem slice_write_next {m : Memory} (hm : m.wf = true) (n : Nat) (b : Byte) :
    Memory.slice (Memory.write m n b) 0 (n + 1) = Memory.slice m 0 n ++ [b] := by
  have hbelow : (List.range n).map (Memory.read (Memory.write m n b)) = (List.range n).map (Memory.read m) :=
    List.map_congr_left fun a ha => by rw [Memory.read_write hm, if_neg (List.mem_range.mp ha).ne]
  simp [Memory.slice_zero_eq_map_range, List.range_succ, hbelow, Memory.read_write hm]

theorem outcome_byteRow (draw : Nat → Nat) {b : Byte} {s t : State} (h : ByteRow b s t) (hpbuf : s.pbuf.wf = true)
    (hs : s.DecoderInv) (rest : List Byte) (term : RxTerm) :
    s.outcome draw ⟨b :: rest, term⟩ = t.outcome draw ⟨rest, term⟩ := by
  obtain ⟨-, -, hpay, hfcs⟩ := hs
  cases h with
  | framing hphase hb =>
    rw [outcome_of_idle draw (State.raise_phase _ _) (State.raise_log _ _), State.outcome, hphase]
    exact decodeFrame_cons_of_ne draw s.w hb rest term
  | sof hphase hb =>
    subst hb
    rw [State.outcome, hphase]
    exact decodeFrame_sof draw s.w rest term
  | len0 hphase =>
    cases hw : s.w with
    | w1 =>
      simp [State.outcome, hphase, hw, Width.bytes, readExact_cons_andThen, readExact_zero_andThen, fromLe_one, foldXor,
        State.body]
    | w2 =>
      simp [State.outcome, hphase, hw, Width.bytes, readExact_cons_andThen, fromLe, foldXor]
  | len1 hphase =>
    simp [State.outcome, hphase, readExact_cons_andThen, readExact_zero_andThen, fromLe_one, foldXor, State.body]
  | hdr hphase =>
    simp [State.outcome, hphase, State.body, Config.cmdBytes, bodyOutcome_cons]
  | cmd hphase =>
    refine Eq.trans ?_ (outcome_of_payload draw (by exact payload_phase_zero s.L) _).symm
    simp [State.outcome, hphase, State.body, Config.cmdBytes, bodyOutcome_cons, Memory.slice]
  | pay hphase hidx =>
    have hmore := hpay hphase
    have hdPay : s.phase = if s.idx = s.L then .dFcs else .dPay := by
      rw [hphase, if_neg fun h => by rw [h] at hmore; exact lt_irrefl _ hmore]
    have hneed : s.L.toNat - s.idx.toNat = s.L.toNat - (s.idx.toNat + 1) + 1 := by omega
    rw [outcome_of_payload draw hdPay, outcome_of_payload draw rfl, hneed, bodyOutcome_cons]
    simp only [toNat_idx_succ hidx, slice_write_next hpbuf, List.cons_append]
  | checksum hphase hb =>
    have hdone := hfcs hphase
    have hdFcs : s.phase = if s.idx = s.L then .dFcs else .dPay := by rw [hphase, if_pos hdone]
    rw [outcome_of_idle draw (State.raise_phase _ _) (State.raise_log _ _), outcome_of_payload draw hdFcs, hdone,
      Nat.sub_self, bodyOutcome_fcs, answerFrom, if_pos (Ne.symm hb)]
  | ok hphase hb =>
    have hdone := hfcs hphase
    have hdFcs : s.phase = if s.idx = s.L then .dFcs else .dPay := by rw [hphase, if_pos hdone]
    rw [outcome_of_idle draw (State.respond_phase _ _) (State.respond_log _ _), outcome_of_payload draw hdFcs, hdone,
      Nat.sub_self, bodyOutcome_fcs, answerFrom, if_neg (not_not.mpr hb.symm)]
    rfl

/-- On an empty stream the algorithm stops where the machine does. -/
theorem outcome_nil (draw : Nat → Nat) {s : State} (hbusy : s.phase ≠ .idle) (term : RxTerm) :
    s.outcome draw ⟨[], term⟩ = FrameRead.onExhausted term := by
  cases hphase : s.phase with
  | idle => exact absurd hphase hbusy
  | dSof => simp [State.outcome, hphase, decodeFrame, readExact_nil_andThen]
  | dLen0 => cases hw : s.w <;> simp [State.outcome, hphase, hw, Width.bytes, readExact_nil_andThen]
  | dLen1 => simp [State.outcome, hphase, readExact_nil_andThen]
  | dHdr | dCmd | dPay | dFcs => simp [State.outcome, hphase, bodyOutcome_nil]

/-! The simulation. -/

/-- What the transport can make of a stream: nothing of one that is not open; of an open one, anything that starts alike. -/
def RxStream.Becomes (rx later : RxStream) : Prop :=
  later = rx ∨ (rx.term = .opened ∧ ∃ more, later.bytes = rx.bytes ++ more)

theorem becomes_trans {a b c : RxStream} (hab : a.Becomes b) (hbc : b.Becomes c) : a.Becomes c := by
  rcases hab with rfl | ⟨ha, more, hb⟩
  · exact hbc
  · rcases hbc with rfl | ⟨-, more', hc⟩
    · exact .inr ⟨ha, more, hb⟩
    · exact .inr ⟨ha, more ++ more', by rw [hc, hb, List.append_assoc]⟩

theorem becomes_cons {b : Byte} {bytes : List Byte} {term : RxTerm} {later : RxStream}
    (h : RxStream.Becomes ⟨bytes, term⟩ later) : RxStream.Becomes ⟨b :: bytes, term⟩ ⟨b :: later.bytes, later.term⟩ := by
  rcases h with rfl | ⟨hopen, more, hlater⟩
  · exact .inl rfl
  · exact .inr ⟨hopen, more, congrArg (b :: ·) hlater⟩

/-- The simulation relation: `used` has been read of the stream and `log` was the log when a DECODE at `width` was accepted.
Whatever the transport makes of the stream, the algorithm on `used` and the stream comes to what the registers say, and one
response has been given exactly if the block is idle. -/
structure State.Follows (draw : Nat → Nat) (width : Width) (used : List Byte) (log : List Response) (s : State) : Prop where
  pbuf : s.pbuf.wf = true
  decoder : s.DecoderInv
  outcome : ∀ rx, s.rx.Becomes rx → decodeFrame draw width ⟨used ++ rx.bytes, rx.term⟩ = s.outcome draw rx
  answered : s.phase = .idle → ∃ r, s.log = log ++ [r]
  silent : s.phase ≠ .idle → s.log = log

/-- A row ends the DECODE with a response or goes on without one. -/
theorem ByteRow.log {b : Byte} {s t : State} (h : ByteRow b s t) :
    (t.phase = .idle ∧ ∃ r, t.log = s.log ++ [r]) ∨ (t.phase ≠ .idle ∧ t.log = s.log) := by
  cases h with
  | framing | checksum | ok => exact .inl ⟨rfl, _, rfl⟩
  | sof | len1 | hdr => exact .inr ⟨nofun, rfl⟩
  | len0 | cmd | pay => exact .inr ⟨by split <;> nofun, rfl⟩

section Simulation

variable {draw : Nat → Nat} {width : Width} {used : List Byte} {log : List Response} {s t : State}

theorem State.Follows.byte {b : Byte} {rest : List Byte} (hs : s.Follows draw width used log) (hbusy : s.phase ≠ .idle)
    (hbytes : s.rx.bytes = b :: rest) (h : ByteRow b (s.leaving rest) t) :
    t.Follows draw width (used ++ [b]) log := by
  have hrx : t.rx = ⟨rest, s.rx.term⟩ := h.rx
  have hstream : s.rx = ⟨b :: rest, s.rx.term⟩ := by rw [← hbytes]
  have hsilent : s.log = log := hs.silent hbusy
  constructor
  case pbuf => exact h.wf_pbuf hs.pbuf
  case decoder => exact h.decoderInv hs.decoder
  case outcome =>
    intro rx hlater
    have hlater' : s.rx.Becomes ⟨b :: rx.bytes, rx.term⟩ := hstream ▸ becomes_cons (hrx ▸ hlater)
    rw [List.append_assoc, List.singleton_append]
    exact (hs.outcome _ hlater').trans (outcome_byteRow draw h hs.pbuf hs.decoder rx.bytes rx.term)
  case answered =>
    intro hidle
    rcases h.log with ⟨-, r, hlog⟩ | ⟨hnot, -⟩
    · exact ⟨r, hsilent ▸ hlog⟩
    · exact absurd hidle hnot
  case silent =>
    intro hbusy'
    rcases h.log with ⟨hidle, -⟩ | ⟨-, hlog⟩
    · exact absurd hidle hbusy'
    · exact hsilent ▸ hlog

theorem State.Follows.exhausted {code : ResultCode} (hs : s.Follows draw width used log) (hbusy : s.phase ≠ .idle)
    (hbytes : s.rx.bytes = []) (hcode : s.rx.term.endCode = some code) :
    (s.raise code).Follows draw width used log := by
  refine ⟨hs.pbuf, decoderInv_of_early (.inl rfl), fun rx hlater => ?_, fun _ => ⟨Response.error code, ?_⟩, nofun⟩
  · have hended : s.rx.term ≠ .opened := by
      intro hopen
      rw [hopen] at hcode
      cases hcode
    obtain rfl : rx = s.rx := hlater.resolve_right fun h => hended h.1
    have hstream : s.rx = ⟨[], s.rx.term⟩ := by rw [← hbytes]
    rw [hs.outcome s.rx (.inl rfl), outcome_of_idle draw (State.raise_phase _ _) (State.raise_log _ _), hstream,
      outcome_nil draw hbusy, FrameRead.onExhausted, hcode]
  · rw [State.raise_log, hs.silent hbusy]

/-- The block's step reads a byte or leaves the stream. -/
theorem State.Follows.block (hs : s.Follows draw width used log) (hport : s.port = []) (h : BlockEffect s t) :
    ∃ used', t.Follows draw width used' log ∧ used' ++ t.rx.bytes = used ++ s.rx.bytes := by
  cases h with
  | command c waiting _ hfront => cases hport.symm.trans hfront
  | byte b rest _ _ hbusy hbytes hrow =>
    refine ⟨used ++ [b], hs.byte hbusy hbytes hrow, ?_⟩
    rw [hrow.rx, hbytes, List.append_assoc]
    rfl
  | exhausted code _ hbusy hbytes hcode => exact ⟨used, hs.exhausted hbusy hbytes hcode, rfl⟩
  | rest | hold => exact ⟨used, hs, rfl⟩

theorem State.Follows.stream {rx : RxStream} (hs : s.Follows draw width used log) (hrx : s.rx.Becomes rx) :
    { s with rx := rx }.Follows draw width used log :=
  ⟨hs.pbuf, hs.decoder, fun _ hlater => hs.outcome _ (becomes_trans hrx hlater), hs.answered, hs.silent⟩

end Simulation

/-! Runs under a schedule of the transport. -/

/-- Only the transport and the block move, and no command waits. -/
structure State.Driven (s : State) : Prop where
  port : s.port = []
  moves : ∀ m ∈ s.schedule, m.isTransport = true

theorem pushedBytes_cons (m : Move) (ms : List Move) : pushedBytes (m :: ms) = pushedBytes [m] ++ pushedBytes ms := by
  cases m <;> simp [pushedBytes]

/-- What a move of the transport or of the block does. -/
theorem transport_cases {m : Move} {s t : State} (hm : m.isTransport = true) (h : runMove m s = .next t) :
    (m = .block ∧ blockStep s = .next t) ∨
    (∃ rx, t = { s with rx := rx } ∧ s.rx.Becomes rx ∧ rx.bytes = s.rx.bytes ++ pushedBytes [m]) := by
  have hkept : s.rx.bytes = s.rx.bytes ++ [] := (List.append_nil _).symm
  cases m with
  | block => exact .inl ⟨rfl, h⟩
  | push bytes =>
    obtain ⟨hopen, rfl⟩ := of_guarded_next h
    exact .inr ⟨_, rfl, .inr ⟨hopen, bytes, rfl⟩, by simp [pushedBytes]⟩
  | close | fail =>
    obtain ⟨hopen, rfl⟩ := of_guarded_next h
    exact .inr ⟨_, rfl, .inr ⟨hopen, [], hkept⟩, hkept⟩
  | txWrite | readLog =>
    cases h
    exact .inr ⟨_, rfl, .inl rfl, hkept⟩
  | issue | reopen | reset | otherRead => cases hm

theorem isTransport_moveNow {s : State} (hs : s.Driven) : s.moveNow.isTransport = true := by
  unfold State.moveNow
  cases hms : s.schedule with
  | nil => rfl
  | cons m ms => exact hs.moves m (hms ▸ List.mem_cons_self)

theorem schedule_of_blockStep {s t : State} (h : blockStep s = .next t) : t.schedule = s.schedule := by
  cases blockEffect_of_next h with
  | command _ _ _ _ _ hexec => exact (execEffect_of_next hexec).schedule
  | byte _ _ _ _ _ _ hrow => exact hrow.schedule
  | rest | hold | exhausted => rfl

/-- A step uses up one move of the schedule. -/
theorem schedule_of_step {s t : State} (h : step s = .next t) : t.schedule = s.schedule.tail := by
  cases moveEffect_of_step h with
  | block _ _ hblock => exact schedule_of_blockStep hblock
  | run _ _ _ _ hexec => exact (execEffect_of_next hexec).schedule
  | wait | reset | stream => rfl

theorem driven_of_step {s t : State} (hs : s.Driven) (h : step s = .next t) : t.Driven := by
  have hm := isTransport_moveNow hs
  refine ⟨?_, fun m hmem => hs.moves m (List.mem_of_mem_tail (schedule_of_step h ▸ hmem))⟩
  rcases port_of_step h with hsame | ⟨c, hc, -⟩ | ⟨c, hfront, -⟩
  · exact hsame.trans hs.port
  · rw [hc] at hm
    cases hm
  · cases hs.port.symm.trans hfront

theorem follows_of_step {draw : Nat → Nat} {width : Width} {used : List Byte} {log : List Response} {s t : State}
    (hs : s.Follows draw width used log) (hdriven : s.Driven) (h : step s = .next t) :
    ∃ used', t.Follows draw width used' log ∧
      used' ++ t.rx.bytes = used ++ s.rx.bytes ++ pushedBytes [s.moveNow] := by
  have hmoved : s.moved.Follows draw width used log := ⟨hs.pbuf, hs.decoder, hs.outcome, hs.answered, hs.silent⟩
  rcases transport_cases (isTransport_moveNow hdriven) ((step_eq_runMove s).symm.trans h) with
    ⟨hm, hblock⟩ | ⟨rx, rfl, hlater, hbytes⟩
  · obtain ⟨used', ht, hread⟩ := hmoved.block hdriven.port (blockEffect_of_next hblock)
    exact ⟨used', ht, by simp [hm, pushedBytes, hread]⟩
  · exact ⟨used, hmoved.stream hlater, by rw [hbytes, List.append_assoc]⟩

theorem pushedBytes_take_succ (s : State) (n : Nat) :
    pushedBytes (s.schedule.take (n + 1)) = pushedBytes [s.moveNow] ++ pushedBytes (s.schedule.tail.take n) := by
  unfold State.moveNow
  cases s.schedule with
  | nil => simp [pushedBytes]
  | cons m ms => exact pushedBytes_cons m (ms.take n)

/-- A run that has a first step. -/
theorem exists_step_of_runSteps {s t : State} {n : Nat} (h : runSteps (n + 1) s = .next t) :
    ∃ u, step s = .next u ∧ runSteps n u = .next t := by
  rw [runSteps_succ] at h
  cases hstep : step s with
  | next u => exact ⟨u, rfl, by rwa [hstep] at h⟩
  | fault r => rw [hstep] at h; cases h
  | refused r => rw [hstep] at h; cases h

theorem follows_of_run {draw : Nat → Nat} {width : Width} {log : List Response} {t : State} (n : Nat) {used : List Byte}
    {s : State} (hs : s.Follows draw width used log) (hdriven : s.Driven) (h : runSteps n s = .next t) :
    ∃ used', t.Follows draw width used' log ∧
      used' ++ t.rx.bytes = used ++ s.rx.bytes ++ pushedBytes (s.schedule.take n) := by
  induction n generalizing used s with
  | zero =>
    cases h
    exact ⟨used, hs, by simp [pushedBytes]⟩
  | succ n ih =>
    obtain ⟨u, hstep, hrun⟩ := exists_step_of_runSteps h
    obtain ⟨used1, hu, hread1⟩ := follows_of_step hs hdriven hstep
    obtain ⟨used2, ht, hread2⟩ := ih hu (driven_of_step hdriven hstep) hrun
    refine ⟨used2, ht, ?_⟩
    rw [hread2, hread1, schedule_of_step hstep, pushedBytes_take_succ, List.append_assoc]

/-! The machine comes to an answer or to a hold. -/

/-- The DECODE has ended, or waits for the transport. -/
def State.Settled (s : State) : Prop := s.phase = .idle ∨ s.rx = ⟨[], .opened⟩

/-- An idle block at whose port nothing waits, left to itself, stays as it is. -/
theorem runSteps_of_rest {s : State} (hidle : s.phase = .idle) (hport : s.port = []) (hschedule : s.schedule = [])
    (n : Nat) : runSteps n s = .next s :=
  runSteps_of_fixed ((step_of_no_schedule hschedule).trans (blockStep_of_idle (portBlocked_of_empty hport) hidle)) n

/-- The steps after which a driven block is settled: its moves, the bytes there and to come, and one for the end. -/
def State.budget (s : State) : Nat := s.schedule.length + (s.rx.bytes ++ pushedBytes s.schedule).length + 1

/-- A move of the schedule takes one step and adds no byte that was not counted. -/
theorem budget_of_move {s t : State} {m : Move} {ms : List Move} (hdriven : s.Driven) (hschedule : s.schedule = m :: ms)
    (h : step s = .next t) : t.budget + 1 ≤ s.budget := by
  have hm := isTransport_moveNow hdriven
  have hnow : s.moveNow = m := by rw [State.moveNow, hschedule]; rfl
  have htail : t.schedule = ms := by rw [schedule_of_step h, hschedule]; rfl
  have hcount : t.rx.bytes.length ≤ (s.rx.bytes ++ pushedBytes [m]).length := by
    rw [hnow] at hm
    have hmove : runMove m s.moved = .next t := hnow ▸ (step_eq_runMove s).symm.trans h
    rcases transport_cases hm hmove with ⟨rfl, hblock⟩ | ⟨rx, rfl, -, hbytes⟩
    · rcases blockConsumesFromTheFront _ _ hblock with hsame | ⟨b, hbytes, -⟩
      · simp [hsame]
      · have hshorter : s.rx.bytes = b :: t.rx.bytes := hbytes
        simp only [hshorter, List.length_append, List.length_cons]
        omega
    · exact hbytes ▸ le_refl _
  simp only [State.budget, hschedule, htail, pushedBytes_cons m ms, List.length_append, List.length_cons] at hcount ⊢
  omega

/-- A step of a block left to itself: it is settled, it settles, or it reads one of the bytes that are there. -/
theorem step_unscheduled_cases {s t : State} (hport : s.port = []) (hschedule : s.schedule = []) (h : step s = .next t) :
    (t = s ∧ s.Settled) ∨ (t.phase = .idle ∧ t.port = []) ∨ t.rx.bytes.length + 1 ≤ s.rx.bytes.length := by
  rw [step_of_no_schedule hschedule] at h
  cases blockEffect_of_next h with
  | command c waiting _ hfront => cases hport.symm.trans hfront
  | rest _ hidle => exact .inl ⟨rfl, .inl hidle⟩
  | hold _ _ hrx => exact .inl ⟨rfl, .inr hrx⟩
  | byte b rest _ _ _ hbytes hrow => exact .inr (.inr (by simp [hrow.rx, hbytes]))
  | exhausted => exact .inr (.inl ⟨rfl, hport⟩)

theorem settled_of_run {t : State} (n : Nat) {s : State} (hdriven : s.Driven) (h : runSteps n s = .next t)
    (hn : s.budget ≤ n) : t.Settled := by
  induction n generalizing s with
  | zero => exact absurd hn (by simp [State.budget])
  | succ n ih =>
    obtain ⟨u, hstep, hrun⟩ := exists_step_of_runSteps h
    have hu := driven_of_step hdriven hstep
    cases hschedule : s.schedule with
    | cons m ms =>
      have hless := budget_of_move hdriven hschedule hstep
      exact ih hu hrun (by omega)
    | nil =>
      have hunscheduled : u.schedule = [] := by rw [schedule_of_step hstep, hschedule]; rfl
      rcases step_unscheduled_cases hdriven.port hschedule hstep with ⟨rfl, hsettled⟩ | ⟨hidle, hport⟩ | hread
      · cases h.symm.trans (runSteps_of_fixed hstep _)
        exact hsettled
      · cases hrun.symm.trans (runSteps_of_rest hidle hport hunscheduled n)
        exact .inl hidle
      · refine ih hu hrun ?_
        simp only [State.budget, hschedule, hunscheduled, List.length_append] at hn ⊢
        omega

/-! The refinement. -/

/-- Where a DECODE starts, nothing is read. -/
theorem follows_start (draw : Nat → Nat) {s : State} (hphase : s.phase = .dSof) (hpbuf : s.pbuf.wf = true) :
    s.Follows draw s.w [] s.log :=
  ⟨hpbuf, decoderInv_of_early (.inr (.inl hphase)), fun rx _ => by simp [State.outcome, hphase],
    fun hidle => absurd (hphase.symm.trans hidle) nofun, fun _ => rfl⟩

/-- Settles O22: the simulation holds along every run, and is read off where the run stands. -/
theorem decoderRefinesAlgorithm : Obligations.DecoderRefinesAlgorithm := by
  rintro draw width s t n seen hphase rfl hport hpbuf hschedule hrun rfl
  obtain ⟨used, ht, hread⟩ := follows_of_run n (follows_start draw hphase hpbuf) ⟨hport, hschedule⟩ hrun
  rw [List.nil_append] at hread
  have houtcome := ht.outcome t.rx (.inl rfl)
  rw [hread] at houtcome
  refine ⟨fun hidle => ?answered, fun hbusy => ⟨ht.silent hbusy, fun hrx => ?holds⟩, fun hn => ?settled⟩
  case answered =>
    obtain ⟨r, hlog⟩ := ht.answered hidle
    exact ⟨r, houtcome.trans (outcome_of_idle draw hidle hlog t.rx), hlog⟩
  case holds =>
    rw [houtcome, hrx, outcome_nil draw hbusy]
    rfl
  case settled =>
    refine settled_of_run n ⟨hport, hschedule⟩ hrun ?_
    rwa [List.take_of_length_le (by omega)] at hn

end Sys2Proof.Machine
end

section
/-! PROOFS. Runs of several DECODEs that wait at the port (spec 42 R139, 70 R206), and a DECODE that is aborted between two of
its byte steps (44 R160). -/

namespace Sys2Proof.Machine

open Sys2Proof

/-! One whole frame. -/

/-- The frame of a Packet in place is answered by the Packet. -/
theorem answerOf_packet (width : Width) {p : Packet} (h : inPlace p = true) :
    answerOf (packetLength width p) (packetRest p) (fcs (packetLength width p ++ packetRest p)) =
      Response.okPacket p := by
  rw [packetRest, answerOf_fcs, packetOf_hdrPack h]

/-- From D_SOF, with the frame of a well-formed Packet at the front of the stream: one step for each of its bytes. -/
theorem runSteps_packetFrame {s : State} {width : Width} {p : Packet} {rest : List Byte} (hrun : s.Unattended)
    (hphase : s.phase = .dSof) (hw : s.w = width) (hpbuf : s.pbuf.wf = true) (hwf : packetWF p width = true)
    (hrx : s.rx.bytes = packetFrame width p ++ rest) :
    ∃ t, runSteps (packetFrame width p).length s = .next t ∧ t.phase = .idle ∧ t.schedule = [] ∧ t.pbuf.wf = true ∧
      t.port = s.port ∧ t.log = s.log ++ [Response.okPacket p] ∧ t.rx = ⟨rest, s.rx.term⟩ := by
  subst hw
  obtain ⟨hinPlace, hfit⟩ := (packetWF_iff p s.w).mp hwf
  have hbytes := hrx
  rw [packetFrame_eq, List.cons_append, List.append_assoc, List.singleton_append] at hbytes
  have hframe := runSteps_frame hrun hpbuf hphase (length_packetLength s.w p) (length_packetRest_of_fits hfit) hbytes
  have hcount : (packetFrame s.w p).length = 1 + s.w.bytes + (packetRest p).length + 1 := by
    have := length_packetFrame_succ s.w p
    omega
  rw [hcount, ← answerOf_packet s.w hinPlace]
  exact ⟨_, hframe, rfl, hrun.1, Memory.wf_writes hpbuf _ _, rfl, rfl, rfl⟩

/-! DECODEs that wait at the port of an idle block. -/

/-- An idle block left to itself, before which `n` DECODEs at `width` wait. -/
structure State.Queued (width : Width) (n : Nat) (s : State) : Prop where
  idle : s.phase = .idle
  schedule : s.schedule = []
  pbuf : s.pbuf.wf = true
  port : s.port = List.replicate n (decodeCommand width)

theorem isAbort_of_mem_replicate {width : Width} {n : Nat} {c : Command}
    (h : c ∈ List.replicate n (decodeCommand width)) : Command.isAbort c = false := by
  rw [List.eq_of_mem_replicate h, isAbort_decodeCommand]

/-- The state in which the oldest of the waiting DECODEs has been accepted. -/
def State.taken (width : Width) (n : Nat) (s : State) : State :=
  { s with port := List.replicate n (decodeCommand width) }.startDecode width

section Queued

variable {width : Width} {n : Nat} {s : State} (hs : s.Queued width (n + 1))
include hs

theorem step_of_queued : step s = .next (s.taken width n) :=
  step_accepts_decode hs.idle hs.schedule hs.port

theorem unattended_taken : (s.taken width n).Unattended :=
  ⟨hs.schedule, fun _ hc => isAbort_of_mem_replicate hc⟩

/-- The oldest DECODE reads the frame at the front of the stream, and the others wait on. -/
theorem runSteps_queued_frame {p : Packet} {rest : List Byte} (hwf : packetWF p width = true)
    (hrx : s.rx.bytes = packetFrame width p ++ rest) :
    ∃ t, runSteps ((packetFrame width p).length + 1) s = .next t ∧ t.Queued width n ∧
      t.log = s.log ++ [Response.okPacket p] ∧ t.rx = ⟨rest, s.rx.term⟩ := by
  obtain ⟨t, hframe, hidle, hschedule, hpbuf, hport, hlog, htrx⟩ :=
    runSteps_packetFrame (s := s.taken width n) (unattended_taken hs) rfl rfl hs.pbuf hwf hrx
  exact ⟨t, (runSteps_succ_of_next _ (step_of_queued hs)).trans hframe, ⟨hidle, hschedule, hpbuf, hport⟩, hlog, htrx⟩

/-- The oldest DECODE drops a byte that is not SOF, and the others wait on. -/
theorem runSteps_queued_not_sof {b : Byte} {rest : List Byte} (hb : b ≠ Config.sof) (hrx : s.rx.bytes = b :: rest) :
    ∃ t, runSteps 2 s = .next t ∧ t.Queued width n ∧ t.log = s.log ++ [Response.error .framingError] ∧
      t.rx = ⟨rest, s.rx.term⟩ := by
  have hsof := runSteps_succ_of_byte 0 (unattended_taken hs) nofun hrx (byteStep_dSof_of_ne b rfl hb)
  exact ⟨_, (runSteps_succ_of_next 1 (step_of_queued hs)).trans hsof, ⟨rfl, hs.schedule, hs.pbuf, rfl⟩, rfl, rfl⟩

end Queued

/-- Whole frames at the front of the stream, one for each waiting DECODE. -/
theorem runSteps_queued_frames {width : Width} (ps : List Packet) {rest : List Byte} {s : State}
    (hwf : ∀ p ∈ ps, packetWF p width = true) (hs : s.Queued width ps.length)
    (hrx : s.rx.bytes = (ps.map (packetFrame width)).flatten ++ rest) :
    ∃ t, runSteps ((ps.map (packetFrame width)).flatten.length + ps.length) s = .next t ∧ t.Queued width 0 ∧
      t.log = s.log ++ ps.map Response.okPacket ∧ t.rx = ⟨rest, s.rx.term⟩ := by
  induction ps generalizing s with
  | nil =>
    obtain rfl : s.rx.bytes = rest := hrx
    exact ⟨s, rfl, hs, (List.append_nil _).symm, rfl⟩
  | cons p ps ih =>
    rw [List.map_cons, List.flatten_cons, List.append_assoc] at hrx
    obtain ⟨u, hfirst, hu, hulog, hurx⟩ := runSteps_queued_frame hs (hwf p List.mem_cons_self) hrx
    obtain ⟨t, hothers, ht, htlog, htrx⟩ := ih (fun q hq => hwf q (List.mem_cons_of_mem p hq)) hu (by rw [hurx])
    have hcount : ((p :: ps).map (packetFrame width)).flatten.length + (p :: ps).length =
        (packetFrame width p).length + 1 + ((ps.map (packetFrame width)).flatten.length + ps.length) := by
      rw [List.map_cons, List.flatten_cons, List.length_append, List.length_cons]
      omega
    refine ⟨t, hcount ▸ runSteps_trans hfirst hothers, ht, ?_, ?_⟩
    · rw [htlog, hulog, List.append_assoc]
      rfl
    · rw [htrx, hurx]

/-- Settles O25: by induction on the Packets. -/
theorem backToBackFrames : Obligations.BackToBackFrames := by
  intro width ps rest s hwf hidle hschedule hpbuf hport hrx
  obtain ⟨t, hrun, ht, hlog, htrx⟩ := runSteps_queued_frames ps hwf ⟨hidle, hschedule, hpbuf, hport⟩ hrx
  exact ⟨t, hrun, ht.idle, hlog, htrx, ht.port⟩

/-- Bytes that are not SOF at the front of the stream, one for each of the first waiting DECODEs. -/
theorem runSteps_queued_junk {width : Width} {n : Nat} (junk : List Byte) {rest : List Byte} {s : State}
    (hjunk : ∀ b ∈ junk, b ≠ Config.sof) (hs : s.Queued width (junk.length + n)) (hrx : s.rx.bytes = junk ++ rest) :
    ∃ t, runSteps (2 * junk.length) s = .next t ∧ t.Queued width n ∧
      t.log = s.log ++ List.replicate junk.length (Response.error .framingError) ∧ t.rx = ⟨rest, s.rx.term⟩ := by
  induction junk generalizing s with
  | nil =>
    obtain rfl : s.rx.bytes = rest := hrx
    rw [List.length_nil, Nat.zero_add] at hs
    exact ⟨s, rfl, hs, (List.append_nil _).symm, rfl⟩
  | cons b junk ih =>
    rw [List.length_cons, Nat.succ_add] at hs
    obtain ⟨u, hfirst, hu, hulog, hurx⟩ := runSteps_queued_not_sof hs (hjunk b List.mem_cons_self) hrx
    obtain ⟨t, hothers, ht, htlog, htrx⟩ := ih (fun c hc => hjunk c (List.mem_cons_of_mem b hc)) hu (by rw [hurx]; rfl)
    have hcount : 2 * (b :: junk).length = 2 + 2 * junk.length := by
      rw [List.length_cons]
      omega
    refine ⟨t, hcount ▸ runSteps_trans hfirst hothers, ht, ?_, ?_⟩
    · rw [htlog, hulog, List.append_assoc]
      rfl
    · rw [htrx, hurx]

/-- Settles O27: the junk first, then the frame. -/
theorem repeatedDecodeFindsTheFrame : Obligations.RepeatedDecodeFindsTheFrame := by
  intro width p junk rest s hwf hjunk hidle hschedule hpbuf hport hrx
  rw [List.append_assoc] at hrx
  obtain ⟨u, hfirst, hu, hulog, hurx⟩ :=
    runSteps_queued_junk (n := 1) junk hjunk ⟨hidle, hschedule, hpbuf, hport⟩ hrx
  obtain ⟨t, hlast, ht, htlog, htrx⟩ := runSteps_queued_frame hu hwf (by rw [hurx])
  refine ⟨t, ?_, ht.idle, ?_, ?_, ht.port⟩
  · rw [Nat.add_assoc, Nat.add_comm 1]
    exact runSteps_trans hfirst hlast
  · rw [htlog, hulog]
    rfl
  · rw [htrx, hurx]

/-! The block's steps as moves of a schedule. -/

theorem byteStep_of_row {b : Byte} {s t : State} (h : ByteRow b s t) : byteStep b s = .next t := by
  cases h with
  | framing hphase hb => exact byteStep_dSof_of_ne b hphase hb
  | sof hphase hb => exact hb ▸ byteStep_dSof_of_sof hphase
  | len0 hphase => exact byteStep_dLen0 b hphase
  | len1 hphase => exact byteStep_dLen1 b hphase
  | hdr hphase => exact byteStep_dHdr b hphase
  | cmd hphase => exact byteStep_dCmd b hphase
  | pay hphase hidx => exact byteStep_dPay b hphase hidx
  | checksum hphase hb => exact byteStep_dFcs_of_ne b hphase hb
  | ok hphase hb => exact byteStep_dFcs_of_eq b hphase hb

theorem ByteRow.withSchedule {b : Byte} {s t : State} (h : ByteRow b s t) (ms : List Move) :
    ByteRow b { s with schedule := ms } { t with schedule := ms } := by
  cases h with
  | framing hphase hb => exact .framing hphase hb
  | sof hphase hb => exact .sof hphase hb
  | len0 hphase => exact .len0 hphase
  | len1 hphase => exact .len1 hphase
  | hdr hphase => exact .hdr hphase
  | cmd hphase => exact .cmd hphase
  | pay hphase hidx => exact .pay hphase hidx
  | checksum hphase hb => exact .checksum hphase hb
  | ok hphase hb => exact .ok hphase hb

/-- The decoder does not look at the schedule. -/
theorem blockStep_withSchedule {s t : State} (hport : s.port = []) (h : blockStep s = .next t) (ms : List Move) :
    blockStep { s with schedule := ms } = .next { t with schedule := ms } := by
  cases blockEffect_of_next h with
  | command c waiting _ hfront => cases hport.symm.trans hfront
  | rest hblocked hidle => exact blockStep_of_idle hblocked hidle
  | byte b rest _ hblocked hbusy hbytes hrow =>
    exact (blockStep_of_byte (s := { s with schedule := ms }) hblocked hbusy hbytes).trans
      (byteStep_of_row (hrow.withSchedule ms))
  | hold hblocked hbusy hrx => exact blockStep_of_hold hblocked hbusy hrx
  | exhausted code hblocked hbusy hbytes hcode =>
    exact blockStep_of_exhausted (s := { s with schedule := ms }) hblocked hbusy hbytes hcode

theorem driven_of_unscheduled {s : State} (hport : s.port = []) (hschedule : s.schedule = []) : s.Driven :=
  ⟨hport, fun _ hm => absurd (hschedule ▸ hm) List.not_mem_nil⟩

theorem port_of_unscheduled_step {s t : State} (hport : s.port = []) (hschedule : s.schedule = [])
    (h : step s = .next t) : t.port = [] ∧ t.schedule = [] :=
  ⟨(driven_of_step (driven_of_unscheduled hport hschedule) h).port, by rw [schedule_of_step h, hschedule]; rfl⟩

/-- What a block does left to itself, it does as the block moves of a schedule. -/
theorem runSteps_as_moves (k : Nat) {s t : State} (ms : List Move) (hport : s.port = []) (hschedule : s.schedule = [])
    (h : runSteps k s = .next t) :
    runSteps k { s with schedule := List.replicate k Move.block ++ ms } = .next { t with schedule := ms } := by
  induction k generalizing s with
  | zero =>
    cases h
    rfl
  | succ k ih =>
    obtain ⟨u, hstep, hrun⟩ := exists_step_of_runSteps h
    obtain ⟨huport, huschedule⟩ := port_of_unscheduled_step hport hschedule hstep
    have hblock : blockStep s = .next u := (step_of_no_schedule hschedule).symm.trans hstep
    have hmove : step { s with schedule := List.replicate (k + 1) Move.block ++ ms } =
        .next { u with schedule := List.replicate k Move.block ++ ms } :=
      (step_of_schedule (m := .block) rfl).trans (blockStep_withSchedule hport hblock _)
    rw [runSteps_succ_of_next k hmove]
    exact ih huport huschedule hrun

/-! A frame read in part. -/

theorem schedule_of_run (n : Nat) {s t : State} (h : runSteps n s = .next t) : t.schedule = s.schedule.drop n := by
  induction n generalizing s with
  | zero =>
    cases h
    rfl
  | succ n ih =>
    obtain ⟨u, hstep, hrun⟩ := exists_step_of_runSteps h
    rw [ih hrun, schedule_of_step hstep, List.drop_tail]

theorem driven_of_run (n : Nat) {s t : State} (hs : s.Driven) (h : runSteps n s = .next t) : t.Driven := by
  induction n generalizing s with
  | zero =>
    cases h
    exact hs
  | succ n ih =>
    obtain ⟨u, hstep, hrun⟩ := exists_step_of_runSteps h
    exact ih (driven_of_step hs hstep) hrun

/-- A block left to itself takes bytes from the front of the stream, at most one in a step. -/
theorem rx_of_run (n : Nat) {s t : State} (hport : s.port = []) (hschedule : s.schedule = [])
    (h : runSteps n s = .next t) : ∃ j ≤ n, t.rx = ⟨s.rx.bytes.drop j, s.rx.term⟩ := by
  induction n generalizing s with
  | zero =>
    cases h
    exact ⟨0, le_refl 0, rfl⟩
  | succ n ih =>
    obtain ⟨u, hstep, hrun⟩ := exists_step_of_runSteps h
    obtain ⟨huport, huschedule⟩ := port_of_unscheduled_step hport hschedule hstep
    obtain ⟨j, hj, hrx⟩ := ih huport huschedule hrun
    rcases blockConsumesFromTheFront s u ((step_of_no_schedule hschedule).symm.trans hstep) with
      hsame | ⟨b, hbytes, hterm, -⟩
    · exact ⟨j, by omega, by rw [hrx, hsame]⟩
    · exact ⟨j + 1, by omega, by rw [hrx, hbytes, hterm, List.drop_succ_cons]⟩

theorem exists_middle_of_run {s t : State} (m n : Nat) (h : runSteps (m + n) s = .next t) :
    ∃ u, runSteps m s = .next u ∧ runSteps n u = .next t := by
  induction m generalizing s with
  | zero => exact ⟨s, rfl, by rwa [Nat.zero_add] at h⟩
  | succ m ih =>
    rw [Nat.succ_add] at h
    obtain ⟨v, hstep, hrun⟩ := exists_step_of_runSteps h
    obtain ⟨u, hu, ht⟩ := ih hrun
    exact ⟨u, (runSteps_succ_of_next m hstep).trans hu, ht⟩

/-- Where a run of `n` steps from D_SOF takes `n` bytes, the DECODE is in progress after every shorter run, with a byte taken
in each step and nothing answered. -/
theorem busy_before_end {s t : State} {n k : Nat} (hphase : s.phase = .dSof) (hpbuf : s.pbuf.wf = true)
    (hport : s.port = []) (hschedule : s.schedule = []) (h : runSteps n s = .next t)
    (hread : t.rx.bytes.length + n = s.rx.bytes.length) (hk : k < n) :
    ∃ u, runSteps k s = .next u ∧ u.phase ≠ .idle ∧ u.log = s.log ∧ u.rx = ⟨s.rx.bytes.drop k, s.rx.term⟩ := by
  obtain ⟨m, rfl⟩ : ∃ m, n = k + m := ⟨n - k, by omega⟩
  obtain ⟨u, hu, ht⟩ := exists_middle_of_run k m h
  have hdriven := driven_of_unscheduled hport hschedule
  have hudriven := driven_of_run k hdriven hu
  have huschedule : u.schedule = [] := by rw [schedule_of_run k hu, hschedule, List.drop_nil]
  obtain ⟨i, hi, hurx⟩ := rx_of_run k hport hschedule hu
  obtain ⟨j, hj, htrx⟩ := rx_of_run m hudriven.port huschedule ht
  have hlength : t.rx.bytes.length = s.rx.bytes.length - i - j := by simp [htrx, hurx, Nat.sub_sub]
  obtain rfl : i = k := by omega
  have hbusy : u.phase ≠ .idle := by
    intro hidle
    cases ht.symm.trans (runSteps_of_rest hidle hudriven.port huschedule m)
    rw [hurx, List.length_drop] at hread
    omega
  obtain ⟨used, hfollows, -⟩ := follows_of_run i (follows_start (fun _ => 1) hphase hpbuf) hdriven hu
  exact ⟨u, hu, hbusy, hfollows.silent hbusy, hurx⟩

/-! ABORT between two byte steps. -/

theorem portInv_of_empty {s : State} (h : s.port = []) : s.PortInv :=
  fun _ hc => absurd (h ▸ hc) List.not_mem_nil

theorem step_issue_decode {s : State} {width : Width} {ms : List Move} (hidle : s.phase = .idle) (hport : s.port = [])
    (hschedule : s.schedule = .issue (decodeCommand width) :: ms) :
    step s = .next ({ s with schedule := ms }.startDecode width) := by
  have hexec : exec (decodeInstr width) { s with schedule := ms } = .next ({ s with schedule := ms }.startDecode width) :=
    exec_decodeInstr_of_idle width hidle
  have hissue := issue_of_idle (s := { s with schedule := ms }) hidle (decodeCommand width) hport
  rw [decode_decodeCommand, hexec] at hissue
  exact (step_of_schedule hschedule).trans hissue

theorem step_issue_abort {s : State} {c : Command} (hc : Command.isAbort c = true) (hschedule : s.schedule = [.issue c]) :
    step s = .next (if s.phase = .idle then { s with schedule := [] } else { s with schedule := [] }.raise .cancelled) := by
  obtain ⟨x, hx⟩ := (decode_abort_iff c).mpr hc
  have hissue := issue_of_taken (s := { s with schedule := [] }) (.inl hc)
  rw [hx] at hissue
  exact (step_of_schedule hschedule).trans (hissue.trans (execAbort_eq x _))

/-- The state after the acceptance of a DECODE, with no further move scheduled. -/
def State.decodingAlone (width : Width) (s : State) : State := State.startDecode width { s with schedule := [] }

/-- A DECODE issued to an idle block, `k` steps of the block, and an ABORT. -/
theorem runSteps_decode_abort {s v : State} {width : Width} {c : Command} {k : Nat} (hidle : s.phase = .idle)
    (hport : s.port = []) (hc : Command.isAbort c = true)
    (hschedule : s.schedule = .issue (decodeCommand width) :: (List.replicate k Move.block ++ [Move.issue c]))
    (h : runSteps k (s.decodingAlone width) = .next v) :
    runSteps (k + 2) s =
      .next (if v.phase = .idle then { v with schedule := [] } else { v with schedule := [] }.raise .cancelled) := by
  have hdecode := runSteps_succ_of_next k (step_issue_decode hidle hport hschedule)
  have hmoves := runSteps_as_moves k (s := s.decodingAlone width) [.issue c] hport rfl h
  exact runSteps_trans (m := k + 1) (hdecode.trans hmoves) (runSteps_succ_of_next 0 (step_issue_abort hc rfl))

/-- Settles O32: up to the ABORT the block runs as it does left to itself on the frame. -/
theorem abortAtAnyPoint : Obligations.AbortAtAnyPoint := by
  intro width p c k rest s hwf hc hidle hport hpbuf hschedule hrx
  obtain ⟨t, hframe, htidle, -, -, -, htlog, htrx⟩ :=
    runSteps_packetFrame (s := s.decodingAlone width) (width := width)
      ⟨rfl, portInv_of_empty hport⟩ rfl rfl hpbuf hwf hrx
  refine ⟨fun hk => ?before, fun hk => ?after⟩
  case before =>
    have hread : t.rx.bytes.length + (packetFrame width p).length = s.rx.bytes.length := by
      rw [htrx, hrx, List.length_append, Nat.add_comm]
    obtain ⟨v, hv, hbusy, hvlog, hvrx⟩ :=
      busy_before_end (s := s.decodingAlone width) rfl hpbuf hport rfl hframe hread hk
    refine ⟨_, runSteps_decode_abort hidle hport hc hschedule hv, ?_⟩
    rw [if_neg hbusy]
    refine ⟨rfl, ?_, ?_⟩
    · rw [State.raise_log, hvlog]
      rfl
    · rw [State.raise_rx, hvrx, State.decodingAlone, State.startDecode_rx, hrx, List.drop_append_of_le_length hk.le]
  case after =>
    subst hk
    refine ⟨_, runSteps_decode_abort hidle hport hc hschedule hframe, ?_⟩
    rw [if_pos htidle]
    exact ⟨htidle, htlog, htrx⟩

end Sys2Proof.Machine
end

section
/-! PROOFS. Noninterference (spec 10 R25, R34): two states that agree in what the block is still going to read of its registers
take alike steps for ever, and two idle states agree in that whatever their registers hold. -/

namespace Sys2Proof.Machine

open Sys2Proof

/-! What is still going to be read. -/

/-- The registers that the rest of a DECODE reads hold the same: the width; from D_LEN0 on the checksum; from D_LEN1 on LENGTH;
and what has been received of HEADER, COMMAND and payload. -/
def State.sameLive (s t : State) : Prop :=
  (s.phase ≠ .idle → s.w = t.w) ∧ (s.phase ≠ .idle → s.phase ≠ .dSof → s.acc = t.acc) ∧
  (s.phase ≠ .idle → s.phase ≠ .dSof → s.phase ≠ .dLen0 → s.L = t.L) ∧ s.body = t.body

/-- Two states that no later step tells apart. -/
structure State.Alike (s t : State) : Prop where
  outside : s.sameOutside t
  live : s.sameLive t
  pbufs : s.pbuf.wf = true ∧ t.pbuf.wf = true
  decoders : s.DecoderInv ∧ t.DecoderInv

theorem body_of_idle {s : State} (h : s.phase = .idle) : s.body = [] := by simp [State.body, h]

/-- In an idle block no register is going to be read. -/
theorem sameLive_of_idle {s t : State} (hs : s.phase = .idle) (ht : t.phase = .idle) : s.sameLive t :=
  ⟨fun h => absurd hs h, fun h => absurd hs h, fun h => absurd hs h, by rw [body_of_idle hs, body_of_idle ht]⟩

theorem sameLive_of_eq {s t : State} (hw : s.w = t.w) (hacc : s.acc = t.acc) (hL : s.L = t.L) (hbody : s.body = t.body) :
    s.sameLive t :=
  ⟨fun _ => hw, fun _ _ => hacc, fun _ _ _ => hL, hbody⟩

/-- With HEADER and COMMAND read, a payload byte or the FCS is next. -/
theorem body_of_payload {s : State} (h : s.phase = .dPay ∨ s.phase = .dFcs) :
    s.body = s.hdr :: s.cmd :: Memory.slice s.pbuf 0 s.idx.toNat := by
  rcases h with h | h <;> simp [State.body, h]

theorem dPay_or_dFcs (complete : Prop) [Decidable complete] :
    (if complete then Phase.dFcs else .dPay) = .dPay ∨ (if complete then Phase.dFcs else .dPay) = .dFcs := by
  by_cases h : complete <;> simp [h]

/-- The received bytes tell how many payload bytes there are. -/
theorem eq_of_body_eq {s t : State} (hs : s.phase = .dPay ∨ s.phase = .dFcs) (ht : t.phase = .dPay ∨ t.phase = .dFcs)
    (h : s.body = t.body) :
    s.hdr = t.hdr ∧ s.cmd = t.cmd ∧ s.idx = t.idx ∧
      Memory.slice s.pbuf 0 s.idx.toNat = Memory.slice t.pbuf 0 t.idx.toNat := by
  rw [body_of_payload hs, body_of_payload ht, List.cons.injEq, List.cons.injEq] at h
  obtain ⟨hhdr, hcmd, hslice⟩ := h
  have hlength := congrArg List.length hslice
  rw [Memory.length_slice, Memory.length_slice] at hlength
  exact ⟨hhdr, hcmd, BitVec.eq_of_toNat_eq hlength, hslice⟩

/-! The byte step. -/

/-- The same row applies to both states, and the registers still to be read stay the same. -/
theorem ByteRow.sameLive {b : Byte} {s s' t : State} (h : ByteRow b s s') (hst : s.Alike t) :
    ∃ t', ByteRow b t t' ∧ s'.phase = t'.phase ∧ s'.log = t'.log ∧ s'.sameLive t' := by
  obtain ⟨⟨hphase, -, hlog, -⟩, ⟨hw, hacc, hL, hbody⟩, ⟨hswf, htwf⟩, ⟨⟨-, -, -, hsfcs⟩, -, -, -, htfcs⟩⟩ := hst
  cases h with
  | framing hp hb => exact ⟨_, .framing (hphase ▸ hp) hb, rfl, congrArg (· ++ _) hlog, sameLive_of_idle rfl rfl⟩
  | sof hp hb =>
    rw [hp] at hw
    exact ⟨_, .sof (hphase ▸ hp) hb, rfl, hlog, by simp [State.sameLive, State.body, hw nofun]⟩
  | len0 hp =>
    rw [hp] at hw hacc
    have hnext : (if s.w = .w2 then Phase.dLen1 else .dHdr) = if t.w = .w2 then .dLen1 else .dHdr := by rw [hw nofun]
    refine ⟨_, .len0 (hphase ▸ hp), hnext, hlog,
      sameLive_of_eq (hw nofun) (congrArg (· ^^^ b) (hacc nofun nofun)) rfl ?_⟩
    cases htw : t.w <;> simp [State.body, hw nofun, htw]
  | len1 hp =>
    rw [hp] at hw hacc hL
    exact ⟨_, .len1 (hphase ▸ hp), rfl, hlog, sameLive_of_eq (hw nofun) (congrArg (· ^^^ b) (hacc nofun nofun))
      (congrArg (· ||| (zext16 b <<< 8)) (hL nofun nofun nofun)) rfl⟩
  | hdr hp =>
    rw [hp] at hw hacc hL
    exact ⟨_, .hdr (hphase ▸ hp), rfl, hlog,
      sameLive_of_eq (hw nofun) (congrArg (· ^^^ b) (hacc nofun nofun)) (hL nofun nofun nofun) rfl⟩
  | cmd hp =>
    have hhdr : s.hdr = t.hdr := by simpa [State.body, hp, ← hphase] using hbody
    rw [hp] at hw hacc hL
    refine ⟨_, .cmd (hphase ▸ hp), by rw [hL nofun nofun nofun], hlog,
      sameLive_of_eq (hw nofun) (congrArg (· ^^^ b) (hacc nofun nofun)) (hL nofun nofun nofun) ?_⟩
    rw [body_of_payload (dPay_or_dFcs _), body_of_payload (dPay_or_dFcs _), hhdr]
    rfl
  | pay hp hidx =>
    obtain ⟨hhdr, hcmd, hidx', hslice⟩ := eq_of_body_eq (.inl hp) (.inl (hphase ▸ hp)) hbody
    rw [hp] at hw hacc hL
    refine ⟨_, .pay (hphase ▸ hp) (hidx' ▸ hidx), by rw [hL nofun nofun nofun, hidx'], hlog,
      sameLive_of_eq (hw nofun) (congrArg (· ^^^ b) (hacc nofun nofun)) (hL nofun nofun nofun) ?_⟩
    have hnext : Memory.slice (Memory.write s.pbuf s.idx.toNat b) 0 (s.idx + 1).toNat =
        Memory.slice (Memory.write t.pbuf t.idx.toNat b) 0 (t.idx + 1).toNat := by
      rw [toNat_idx_succ hidx, toNat_idx_succ (hidx' ▸ hidx), slice_write_next hswf, slice_write_next htwf, hslice]
    rw [body_of_payload (dPay_or_dFcs _), body_of_payload (dPay_or_dFcs _), hhdr, hcmd, hnext]
  | checksum hp hb =>
    rw [hp] at hacc
    exact ⟨_, .checksum (hphase ▸ hp) (hacc nofun nofun ▸ hb), rfl, congrArg (· ++ _) hlog, sameLive_of_idle rfl rfl⟩
  | ok hp hb =>
    obtain ⟨hhdr, hcmd, -, hslice⟩ := eq_of_body_eq (.inr hp) (.inr (hphase ▸ hp)) hbody
    rw [hsfcs hp, htfcs (hphase ▸ hp)] at hslice
    rw [hp] at hacc
    refine ⟨_, .ok (hphase ▸ hp) (hacc nofun nofun ▸ hb), rfl, ?_, sameLive_of_idle rfl rfl⟩
    rw [State.respond_log, State.respond_log, hlog, hhdr, hcmd, State.received, hslice]
    rfl

theorem ByteRow.alike {b : Byte} {s s' t : State} (h : ByteRow b s s') (hst : s.Alike t) :
    ∃ t', ByteRow b t t' ∧ s'.Alike t' := by
  obtain ⟨t', ht, hphase, hlog, hlive⟩ := h.sameLive hst
  obtain ⟨-, hrx, -, hport, hschedule, hdraws⟩ := hst.outside
  refine ⟨t', ht, ⟨hphase, ?_, hlog, ?_, ?_, ?_⟩, hlive, ⟨h.wf_pbuf hst.pbufs.1, ht.wf_pbuf hst.pbufs.2⟩,
    ⟨h.decoderInv hst.decoders.1, ht.decoderInv hst.decoders.2⟩⟩
  · rw [h.rx, ht.rx, hrx]
  · rw [h.port, ht.port, hport]
  · rw [h.schedule, ht.schedule, hschedule]
  · rw [h.draws, ht.draws, hdraws]

/-! Instructions. -/

theorem alike_of_idle {s t : State} (houtside : s.sameOutside t) (hidle : s.phase = .idle)
    (hpbufs : s.pbuf.wf = true ∧ t.pbuf.wf = true) : s.Alike t :=
  have htidle : t.phase = .idle := houtside.1 ▸ hidle
  ⟨houtside, sameLive_of_idle hidle htidle, hpbufs, decoderInv_of_early (.inl hidle), decoderInv_of_early (.inl htidle)⟩

/-- The block's answer and its being idle, in both states alike. -/
theorem State.Alike.respond {s t : State} (h : s.Alike t) (r : Response) : (s.respond r).Alike (t.respond r) := by
  obtain ⟨-, hrx, hlog, hport, hschedule, hdraws⟩ := h.outside
  exact alike_of_idle ⟨rfl, hrx, congrArg (· ++ [r]) hlog, hport, hschedule, hdraws⟩ rfl h.pbufs

theorem State.Alike.withPort {s t : State} (h : s.Alike t) (port : List Command) :
    { s with port := port }.Alike { t with port := port } := by
  obtain ⟨hphase, hrx, hlog, -, hschedule, hdraws⟩ := h.outside
  exact ⟨⟨hphase, hrx, hlog, rfl, hschedule, hdraws⟩, h.live, h.pbufs, h.decoders⟩

theorem State.Alike.withRx {s t : State} (h : s.Alike t) (rx : RxStream) : { s with rx := rx }.Alike { t with rx := rx } := by
  obtain ⟨hphase, -, hlog, hport, hschedule, hdraws⟩ := h.outside
  exact ⟨⟨hphase, rfl, hlog, hport, hschedule, hdraws⟩, h.live, h.pbufs, h.decoders⟩

theorem State.Alike.startDecode {s t : State} (h : s.Alike t) (width : Width) :
    (s.startDecode width).Alike (t.startDecode width) := by
  obtain ⟨-, hrx, hlog, hport, hschedule, hdraws⟩ := h.outside
  exact ⟨⟨rfl, hrx, hlog, hport, hschedule, hdraws⟩, by simp [State.sameLive, State.body], h.pbufs,
    decoderInv_of_early (.inr (.inl rfl)), decoderInv_of_early (.inr (.inl rfl))⟩

theorem exec_of_immediate {i : Instr} {s : State} {r : Response} (hidle : s.phase = .idle)
    (hr : immediateResponse i = some r) : exec i s = .next (s.respond r) := by
  obtain ⟨t, ht, heffect⟩ := exec_effect i s
  cases heffect with
  | answer r' _ hr' =>
    cases hr.symm.trans hr'
    rw [ht, State.respond, ← hidle]
  | start width _ hi => subst hi; cases width <;> cases hr
  | ignore _ _ hi => subst hi; cases hr
  | cancel _ hbusy | wait hbusy => exact absurd hidle hbusy

/-- An instruction does the same to two states alike. -/
theorem exec_alike (i : Instr) {s t : State} (h : s.Alike t) :
    ∃ s' t', exec i s = .next s' ∧ exec i t = .next t' ∧ s'.Alike t' := by
  obtain ⟨hphase, -, -, hport, -, -⟩ := h.outside
  obtain ⟨s', hs', heffect⟩ := exec_effect i s
  cases heffect with
  | answer r hidle hr =>
    exact ⟨_, _, exec_of_immediate hidle hr, exec_of_immediate (hphase ▸ hidle) hr, h.respond r⟩
  | start width hidle hi =>
    subst hi
    exact ⟨_, _, hs', exec_decodeInstr_of_idle width (hphase ▸ hidle), h.startDecode width⟩
  | ignore x hidle hi =>
    subst hi
    exact ⟨_, _, hs', exec_abort_of_idle (hphase ▸ hidle) x, h⟩
  | cancel x hbusy hi =>
    subst hi
    exact ⟨_, _, hs', abortEndsDecode x t (hphase ▸ hbusy), h.respond _⟩
  | wait hbusy hi =>
    refine ⟨_, _, hs', ((exec_of_busy (i := i) (hphase ▸ hbusy)).resolve_left fun ⟨x, hx, _⟩ => hi x hx).2, ?_⟩
    rw [State.holdAtPort, State.holdAtPort, hport]
    exact h.withPort _

/-! The block's own step. -/

theorem portBlocked_congr {s t : State} (h : s.sameOutside t) : s.portBlocked = t.portBlocked := by
  obtain ⟨hphase, -, -, hport, -, -⟩ := h
  unfold State.portBlocked State.accepts
  rw [hphase, hport]

theorem blockStep_alike {s t : State} (h : s.Alike t) :
    ∃ s' t', blockStep s = .next s' ∧ blockStep t = .next t' ∧ s'.Alike t' := by
  have hblocked := portBlocked_congr h.outside
  obtain ⟨hphase, hrx, -, hport, -, -⟩ := h.outside
  obtain ⟨s', hs'⟩ := blockStep_next h.decoders.1
  cases blockEffect_of_next hs' with
  | command c waiting _ hfront hc hexec =>
    obtain ⟨u, v, hu, hv, huv⟩ := exec_alike (decode c) (h.withPort waiting)
    have hc' : t.accepts c = true := by rwa [State.accepts, ← hphase]
    exact ⟨u, v, (blockStep_of_accepted hfront hc).trans hu, (blockStep_of_accepted (hport ▸ hfront) hc').trans hv, huv⟩
  | rest hb hidle => exact ⟨s, t, hs', blockStep_of_idle (hblocked ▸ hb) (hphase ▸ hidle), h⟩
  | byte b rest _ hb hbusy hbytes hrow =>
    obtain ⟨t', ht', halike⟩ := hrow.alike (h.withRx ⟨rest, s.rx.term⟩)
    have hstep := blockStep_of_byte (hblocked ▸ hb) (hphase ▸ hbusy) (hrx ▸ hbytes)
    rw [← hrx] at hstep
    exact ⟨s', t', hs', hstep.trans (byteStep_of_row ht'), halike⟩
  | hold hb hbusy hopen => exact ⟨s, t, hs', blockStep_of_hold (hblocked ▸ hb) (hphase ▸ hbusy) (hrx ▸ hopen), h⟩
  | exhausted code hb hbusy hbytes hcode =>
    exact ⟨_, _, hs', blockStep_of_exhausted (hblocked ▸ hb) (hphase ▸ hbusy) (hrx ▸ hbytes) (hrx ▸ hcode),
      h.respond _⟩

/-! Moves, steps and runs. -/

/-- Two outcomes that no later step tells apart. -/
def AlikeResults : Result → Result → Prop
  | .next s, .next t => s.Alike t
  | .fault a, .fault b => a = b
  | .refused a, .refused b => a = b
  | _, _ => False

/-- RESET leaves the same free values in both. -/
theorem State.Alike.applyReset {s t : State} (h : s.Alike t) : s.applyReset.Alike t.applyReset := by
  obtain ⟨-, hrx, hlog, hport, hschedule, hdraws⟩ := h.outside
  exact alike_of_idle ⟨rfl, hrx, hlog, hport, hschedule, congrArg (· + 1) hdraws⟩ rfl
    ⟨Memory.wf_fill _ 0, Memory.wf_fill _ 0⟩

theorem issue_alike (c : Command) {s t : State} (h : s.Alike t) :
    ∃ s' t', issue c s = .next s' ∧ issue c t = .next t' ∧ s'.Alike t' := by
  obtain ⟨hphase, -, -, hport, -, -⟩ := h.outside
  by_cases hc : Command.isAbort c = true ∨ (s.phase = .idle ∧ s.port = [])
  · rw [issue_of_taken hc, issue_of_taken (hphase ▸ hport ▸ hc)]
    exact exec_alike (decode c) h
  · have hwait {u : State} (hu : ¬ (Command.isAbort c = true ∨ (u.phase = .idle ∧ u.port = []))) :
        issue c u = .next (u.holdAtPort c) := ((issue_cases c u).resolve_left fun hor => hu hor.1).2
    refine ⟨_, _, hwait hc, hwait (hphase ▸ hport ▸ hc), ?_⟩
    rw [State.holdAtPort, State.holdAtPort, hport]
    exact h.withPort _

/-- A guarded move of the stream: made in both states, or refused in both. -/
theorem alikeResults_guarded {s t : State} (h : s.Alike t) {c d : Prop} [Decidable c] [Decidable d] (hcd : c ↔ d)
    {rx rx' : RxStream} (hrx : rx = rx') (r : Refusal) :
    AlikeResults (if c then .next { s with rx := rx } else .refused r)
      (if d then .next { t with rx := rx' } else .refused r) := by
  subst hrx
  by_cases hc : c
  · rw [if_pos hc, if_pos (hcd.mp hc)]
    exact h.withRx rx
  · rw [if_neg hc, if_neg (mt hcd.mpr hc)]
    rfl

theorem runMove_alike (m : Move) {s t : State} (h : s.Alike t) : AlikeResults (runMove m s) (runMove m t) := by
  obtain ⟨hphase, hrx, -⟩ := h.outside
  cases m with
  | block =>
    obtain ⟨s', t', hs', ht', halike⟩ := blockStep_alike h
    rw [runMove, runMove, hs', ht']
    exact halike
  | issue c =>
    obtain ⟨s', t', hs', ht', halike⟩ := issue_alike c h
    rw [runMove, runMove, hs', ht']
    exact halike
  | push | close | fail =>
    exact alikeResults_guarded h (hcd := by rw [hrx]) (hrx := by rw [hrx]) .streamNotOpen
  | reopen =>
    exact alikeResults_guarded h (hcd := by rw [hphase]) (hrx := rfl) .reopenWhileBusy
  | reset => exact h.applyReset
  | txWrite | readLog => exact h
  | otherRead =>
    simp only [runMove, otherRead, State.takeByte, hrx]
    exact h.withRx _

theorem step_alike {s t : State} (h : s.Alike t) : AlikeResults (step s) (step t) := by
  obtain ⟨hphase, hrx, hlog, hport, hschedule, hdraws⟩ := h.outside
  have hmoved : s.moved.Alike t.moved :=
    ⟨⟨hphase, hrx, hlog, hport, congrArg List.tail hschedule, hdraws⟩, h.live, h.pbufs, h.decoders⟩
  rw [step_eq_runMove, step_eq_runMove, State.moveNow, State.moveNow, hschedule]
  exact runMove_alike _ hmoved

theorem runSteps_alike (n : Nat) {s t : State} (h : s.Alike t) : AlikeResults (runSteps n s) (runSteps n t) := by
  induction n generalizing s t with
  | zero => exact h
  | succ n ih =>
    have hstep := step_alike h
    rw [runSteps_succ, runSteps_succ]
    cases hs : step s <;> cases ht : step t <;> rw [hs, ht] at hstep
    case next.next => exact ih hstep
    case fault.fault | refused.refused => exact hstep
    all_goals exact hstep.elim

theorem sameObserved_of_alike {a b : Result} (h : AlikeResults a b) : sameObserved a b := by
  cases a <;> cases b
  case next.next => exact h.outside
  all_goals exact h

/-- Settles O47: two idle states that agree outside the registers are alike, and stay so. -/
theorem idleRegistersAreDead : Obligations.IdleRegistersAreDead :=
  fun n _ _ hidle hspbuf htpbuf houtside =>
    sameObserved_of_alike (runSteps_alike n (alike_of_idle houtside hidle ⟨hspbuf, htpbuf⟩))

end Sys2Proof.Machine
end

section
/-! PROOFS. Several instances (spec 60 R185, 20 R54): a step of one sees its own state and its stream only, and changes these
only. -/

namespace Sys2Proof.Machine

open Sys2Proof

/-- What codec `k` steps from: the index of its stream, and its state with that stream loaded. -/
def System.view (sys : System) (k : Nat) : Option (Nat × State) :=
  sys.insts[k]?.bind fun s => sys.link[k]?.bind fun x => sys.streams[x]?.map fun rx => (x, { s with rx := rx })

theorem view_eq_some_iff {sys : System} {k x : Nat} {s : State} :
    sys.view k = some (x, s) ↔
      ∃ s0 rx, sys.insts[k]? = some s0 ∧ sys.link[k]? = some x ∧ sys.streams[x]? = some rx ∧ s = { s0 with rx := rx } := by
  constructor
  · intro h
    obtain ⟨s0, hs0, h⟩ := Option.bind_eq_some_iff.mp h
    obtain ⟨y, hy, h⟩ := Option.bind_eq_some_iff.mp h
    obtain ⟨rx, hrx, h⟩ := Option.map_eq_some_iff.mp h
    cases h
    exact ⟨s0, rx, hs0, hy, hrx, rfl⟩
  · rintro ⟨s0, rx, hs0, hx, hrx, rfl⟩
    simp [System.view, hs0, hx, hrx]

/-- The system that an outcome of codec `k`, which reads stream `x`, makes. -/
def System.storeOutcome (sys : System) (k x : Nat) : Result → Host.Outcome System Fault Refusal
  | .next t => .next (sys.store k x t)
  | .fault r => .fault r
  | .refused r => .refused r

theorem stepInst_of_view {sys : System} {k x : Nat} {s : State} (h : sys.view k = some (x, s)) :
    sys.stepInst k = sys.storeOutcome k x (step s) := by
  obtain ⟨s0, rx, hs0, hx, hrx, rfl⟩ := view_eq_some_iff.mp h
  simp only [System.stepInst, hs0, hx, hrx]
  cases step { s0 with rx := rx } <;> rfl

theorem stepInst_of_no_view {sys : System} {k : Nat} (h : sys.view k = none) : sys.stepInst k = .next sys := by
  unfold System.view at h
  unfold System.stepInst
  cases hs : sys.insts[k]? with
  | none => rfl
  | some s =>
    cases hx : sys.link[k]? with
    | none => rfl
    | some x =>
      have hstream : sys.streams[x]? = none := by simpa [hs, hx] using h
      simp only [hstream]

/-- Everything a step of codec `k` can do. -/
theorem stepInst_cases {sys a : System} {k : Nat} (h : sys.stepInst k = .next a) :
    (sys.view k = none ∧ a = sys) ∨
    ∃ x s t, sys.view k = some (x, s) ∧ step s = .next t ∧ a = sys.store k x t := by
  cases hview : sys.view k with
  | none =>
    rw [stepInst_of_no_view hview] at h
    exact .inl ⟨rfl, (Host.Outcome.next.inj h).symm⟩
  | some v =>
    obtain ⟨x, s⟩ := v
    rw [stepInst_of_view hview] at h
    cases hstep : step s <;> rw [hstep] at h <;> cases h
    exact .inr ⟨x, s, _, rfl, hstep, rfl⟩

/-! Storing. -/

section Store

variable (sys : System) {j k x y : Nat} (t u : State)

theorem store_insts_ne (h : j ≠ k) : (sys.store k x t).insts[j]? = sys.insts[j]? :=
  List.getElem?_set_ne h.symm

theorem store_streams_ne (h : y ≠ x) : (sys.store k x t).streams[y]? = sys.streams[y]? :=
  List.getElem?_set_ne h.symm

theorem store_streams_self {rx : RxStream} (h : sys.streams[x]? = some rx) : (sys.store k x t).streams[x]? = some t.rx :=
  List.getElem?_set_self (List.getElem?_eq_some_iff.mp h).1

/-- Another codec on another stream steps from what it stepped from before. -/
theorem view_store (hjk : j ≠ k) (hy : sys.link[j]? = some y) (hxy : x ≠ y) : (sys.store k x t).view j = sys.view j := by
  have hlink : (sys.store k x t).link[j]? = some y := hy
  simp only [System.view, store_insts_ne sys t hjk, hlink, hy, Option.bind_some, store_streams_ne sys t hxy.symm]

theorem store_comm (hjk : j ≠ k) (hxy : x ≠ y) :
    (sys.store k x t).store j y u = (sys.store j y u).store k x t := by
  simp only [System.store, List.set_comm _ _ hjk, List.set_comm _ _ hxy.symm]

end Store

/-! The two statements. -/

/-- Steps of two instances on different streams, in either order. -/
theorem stepInst_comm {sys a b : System} {j k x y : Nat} (hjk : j ≠ k) (hx : sys.link[k]? = some x)
    (hy : sys.link[j]? = some y) (hxy : x ≠ y) (ha : sys.stepInst k = .next a) (hb : a.stepInst j = .next b) :
    ∃ c, sys.stepInst j = .next c ∧ c.stepInst k = .next b := by
  have hlink {z : Nat} {v : Nat × State} {i : Nat} (h : sys.view i = some v) (hz : sys.link[i]? = some z) : v.1 = z := by
    obtain ⟨-, -, -, hw, -⟩ := view_eq_some_iff.mp (show sys.view i = some (v.1, v.2) from h)
    exact Option.some.inj (hw.symm.trans hz)
  rcases stepInst_cases ha with ⟨hk, rfl⟩ | ⟨x', s, t, hk, hs, rfl⟩
  · refine ⟨b, hb, ?_⟩
    rcases stepInst_cases hb with ⟨-, rfl⟩ | ⟨y', s', t', hj, -, rfl⟩
    · exact ha
    · obtain rfl : y' = y := hlink hj hy
      exact stepInst_of_no_view ((view_store a t' hjk.symm hx hxy.symm).trans hk)
  · obtain rfl : x' = x := hlink hk hx
    have hview := view_store sys t hjk hy hxy
    rcases stepInst_cases hb with ⟨hj, rfl⟩ | ⟨y', s', t', hj, hs', rfl⟩
    · exact ⟨sys, stepInst_of_no_view (hview.symm.trans hj), ha⟩
    · have hj' := hview.symm.trans hj
      obtain rfl : y' = y := hlink hj' hy
      refine ⟨sys.store j y' t', ?_, ?_⟩
      · rw [stepInst_of_view hj', hs']
        rfl
      · rw [stepInst_of_view ((view_store sys t' hjk.symm hx hxy.symm).trans hk), hs, store_comm sys t t' hjk hxy]
        rfl

/-- Settles O48: a step stores the state of one codec and one stream. -/
theorem instancesAreIndependent : Obligations.InstancesAreIndependent := by
  intro sys a k ha
  refine ⟨fun j hjk => ?others, ?link, fun j x y b hjk hx hy hxy hb => stepInst_comm hjk hx hy hxy ha hb⟩
  case others =>
    rcases stepInst_cases ha with ⟨-, rfl⟩ | ⟨x, s, t, -, -, rfl⟩
    · rfl
    · exact store_insts_ne sys t hjk
  case link => rcases stepInst_cases ha with ⟨-, rfl⟩ | ⟨x, s, t, -, -, rfl⟩ <;> rfl

/-- Settles O49: the step is the block's, which takes at most the first byte, and the other reader loads what it left. -/
theorem sharedByteGoesToOneReader : Obligations.SharedByteGoesToOneReader := by
  intro sys a k j x s u rx hjk hs hu hk hj hrx hschedule ha
  have hview : sys.view k = some (x, { s with rx := rx }) := view_eq_some_iff.mpr ⟨s, rx, hs, hk, hrx, rfl⟩
  rcases stepInst_cases ha with ⟨hnone, -⟩ | ⟨x', s', t, hview', hstep, rfl⟩
  · cases hview.symm.trans hnone
  cases hview.symm.trans hview'
  have hstream := store_streams_self sys (k := k) t hrx
  have hother := (store_insts_ne sys (x := x) t hjk).trans hu
  have hviewj : (sys.store k x t).view j = some (x, { u with rx := t.rx }) :=
    view_eq_some_iff.mpr ⟨u, t.rx, hother, hj, hstream, rfl⟩
  refine ⟨t.rx, hstream, ?taken, fun y hyx => store_streams_ne sys t hyx, hother, ?next⟩
  case taken =>
    rw [step_of_no_schedule (s := { s with rx := rx }) hschedule] at hstep
    rcases blockConsumesFromTheFront _ _ hstep with hsame | ⟨b, hbytes, hterm, -⟩
    · exact .inl hsame
    · exact .inr ⟨b, hbytes, hterm⟩
  case next =>
    rw [stepInst_of_view hviewj]
    cases step { u with rx := t.rx } <;> rfl

end Sys2Proof.Machine
end

section
/-! PROOFS. What the checksum detects (spec 40 R85), and ENCODE beside other moves, with operands out of form and at both widths
(41 R105, R106). -/

namespace Sys2Proof.Machine

open Sys2Proof

/-! Corruptions of a body. -/

theorem foldXor_zero_cons (b : Byte) (l : List Byte) : foldXor 0x00#8 (b :: l) = b ^^^ foldXor 0x00#8 l := by
  rw [foldXor, BitVec.zero_xor, foldXor_eq_xor_foldXor_zero]

/-- The fold changes by the fold of the differences. -/
theorem foldXor_zipWith {b b' : List Byte} (h : b.length = b'.length) :
    foldXor 0x00#8 b' = foldXor 0x00#8 b ^^^ foldXor 0x00#8 (List.zipWith (· ^^^ ·) b b') := by
  induction b generalizing b' with
  | nil =>
    obtain rfl := List.length_eq_zero_iff.mp h.symm
    rfl
  | cons a l ih =>
    obtain ⟨a', l', rfl⟩ := List.exists_cons_of_length_eq_add_one h.symm
    have hcancel (x y z w : Byte) : x ^^^ y ^^^ (x ^^^ z ^^^ w) = z ^^^ (y ^^^ w) :=
      calc x ^^^ y ^^^ (x ^^^ z ^^^ w) = (x ^^^ x) ^^^ (z ^^^ (y ^^^ w)) := by ac_rfl
        _ = z ^^^ (y ^^^ w) := by rw [BitVec.xor_self, BitVec.zero_xor]
    rw [List.zipWith_cons_cons, foldXor_zero_cons, foldXor_zero_cons, foldXor_zero_cons, hcancel,
      ih (Nat.succ.inj h)]

theorem fcs_eq_fcs_xor {b b' : List Byte} (h : b.length = b'.length) :
    fcs b' = fcs b ^^^ foldXor 0x00#8 (List.zipWith (· ^^^ ·) b b') := by
  rw [fcs_eq_xor, fcs_eq_xor, foldXor_zipWith h, BitVec.xor_assoc]

/-- Two flips of one bit position cancel in the fold. -/
theorem fcs_flipBit_flipBit {b : List Byte} {i j : Nat} (hi : i < b.length) (hj : j < b.length) (k : Nat) :
    fcs (flipBit (flipBit b i k) j k) = fcs b := by
  rw [fcs, foldXor_flipBit _ (by rwa [length_flipBit]), foldXor_flipBit _ hi, BitVec.xor_assoc, BitVec.xor_self,
    BitVec.xor_zero]
  rfl

/-- A swap only reorders the body. -/
theorem fcs_swap {b : List Byte} {i j : Nat} (hi : i < b.length) (hj : j < b.length) :
    fcs ((b.set i (b.getD j 0)).set j (b.getD i 0)) = fcs b := by
  rw [List.getD_eq_getElem _ _ hi, List.getD_eq_getElem _ _ hj]
  exact foldXor_perm Config.fcsSeed (List.set_set_perm hi hj)

/-- Settles O8: by what each corruption does to the fold. -/
theorem checksumErrorDetection : Obligations.ChecksumErrorDetection := by
  refine ⟨fun b b' h => ⟨fcs_eq_fcs_xor h, ?_⟩, fun b i k hi hk => foldXor_flipBit_ne Config.fcsSeed hi hk,
    fun b k hk => mt xor_left_eq_self_iff.mp (one_shiftLeft_ne_zero hk),
    fun b i j k hi hj _ => fcs_flipBit_flipBit hi hj k, fun b i j hi hj => fcs_swap hi hj⟩
  rw [fcs_eq_fcs_xor h]
  exact xor_left_eq_self_iff

/-! ENCODE. -/

/-- The bits that HDR_PACK takes are those that the masks keep. -/
theorem hdrPack_masked (t s : Byte) : hdrPack (t &&& 0xE0#8) (s &&& 0x1F#8) = hdrPack t s := by
  rw [hdrPack, hdrPack, and_mask_idempotent, and_mask_idempotent]

/-- A Packet with both fields masked to their place in the HEADER byte. -/
def maskFields (p : Packet) : Packet :=
  { p with messageType := p.messageType &&& 0xE0#8, subSystem := p.subSystem &&& 0x1F#8 }

theorem encodeResponse_maskFields (width : Width) (p : Packet) :
    encodeResponse width (maskFields p) = encodeResponse width p := by
  have hframe : packetFrame width (maskFields p) = packetFrame width p := by
    simp only [packetFrame, packetBody, maskFields, hdrPack_masked]
  rw [encodeResponse, hframe]
  rfl

/-- Settles O12: the response depends on the two fields through HDR_PACK only. -/
theorem encodeMasksOutOfFormFields : Obligations.EncodeMasksOutOfFormFields := by
  intro width p s hidle
  rw [exec_encodeInstr_of_idle width p hidle, ← encodeResponse_maskFields]
  exact (exec_encodeInstr_of_idle width (maskFields p) hidle).symm

theorem getLast?_packetFrame (width : Width) (p : Packet) :
    (packetFrame width p).getLast? = some (fcs (packetBody width p)) := by
  rw [packetFrame, frameAround, List.getLast?_concat]

/-- Settles O13: the second LENGTH byte is 0, which does not change the fold. -/
theorem encodeChecksumSameAtBothWidths : Obligations.EncodeChecksumSameAtBothWidths := by
  intro p hshort
  have hhigh : BitVec.ofNat 8 (p.payload.length / 256) = 0#8 := by rw [Nat.div_eq_of_lt hshort]
  rw [getLast?_packetFrame, getLast?_packetFrame, packetBody_w1, packetBody_w2, hhigh]
  simp only [fcs, foldXor, BitVec.xor_zero]

/-- A move of another agent on an idle block leaves it idle and the log alone, and does the same under every log. -/
theorem runMove_other_log {m : Move} {s t : State} (hm : m.isOther = true) (hidle : s.phase = .idle)
    (h : runMove m s = .next t) (log : List Response) :
    t.phase = .idle ∧ t.log = s.log ∧ runMove m { s with log := log } = .next { t with log := log } := by
  cases m with
  | block => cases hm
  | issue c =>
    obtain ⟨x, hx⟩ := (decode_abort_iff c).mpr hm
    have habort {u : State} (hu : u.phase = .idle) : issue c u = .next u := by
      rw [issue_of_taken (.inl hm), hx, exec_abort_of_idle hu]
    cases (habort hidle).symm.trans h
    exact ⟨hidle, rfl, habort hidle⟩
  | push | close | fail | reopen =>
    obtain ⟨hc, rfl⟩ := of_guarded_next h
    exact ⟨hidle, rfl, if_pos hc⟩
  | reset =>
    cases h
    exact ⟨rfl, rfl, rfl⟩
  | txWrite | readLog | otherRead =>
    cases h
    exact ⟨hidle, rfl, rfl⟩

/-- Settles O11: ENCODE writes the log by its operands alone, and the other moves do not look at the log. -/
theorem encodeIsAtomicAndDeterministic : Obligations.EncodeIsAtomicAndDeterministic := by
  refine fun width p => ⟨⟨encodeResponse width p, fun s hidle => exec_encodeInstr_of_idle width p hidle⟩,
    fun m s t hm hidle hmove => ?_⟩
  obtain ⟨htidle, htlog, hcommutes⟩ := runMove_other_log hm hidle hmove (s.log ++ [encodeResponse width p])
  refine ⟨_, _, exec_encodeInstr_of_idle width p htidle, exec_encodeInstr_of_idle width p hidle, ?_⟩
  rw [htlog]
  exact hcommutes

end Sys2Proof.Machine
end

section
/-! PROOFS. What the transport's read may return (spec 43 R151), and the bytes that a DECODE consumes (42 R126). -/

namespace Sys2Proof.Machine

open Sys2Proof

/-! One read of the transport. -/

theorem chunk_bounds (k : Nat) {m available : Nat} (hm : 1 ≤ m) (ha : 1 ≤ available) :
    1 ≤ chunk k m available ∧ chunk k m available ≤ min m available := by
  unfold chunk
  omega

theorem chunk_of_allowed {k m available : Nat} (hk : 1 ≤ k) (h : k ≤ min m available) : chunk k m available = k := by
  unfold chunk
  omega

theorem readSome_of_bytes (k m : Nat) {rx : RxStream} (h : rx.bytes ≠ []) :
    readSome k m rx =
      .bytes (rx.bytes.take (chunk k m rx.bytes.length)) ⟨rx.bytes.drop (chunk k m rx.bytes.length), rx.term⟩ := by
  obtain ⟨b, rest, hrx⟩ := List.exists_cons_of_ne_nil h
  simp only [readSome, hrx]

/-- Settles O28: `chunk` stays in the allowed range and reaches all of it. -/
theorem readSomeOutcomes : Obligations.ReadSomeOutcomes := by
  refine fun m rx hm => ⟨fun hbytes => ⟨fun draw => ?bounds, fun k hk hle => ?all⟩, fun hbytes draw => ?empty⟩
  case bounds =>
    obtain ⟨hpos, hle⟩ := chunk_bounds draw hm (List.length_pos_of_ne_nil hbytes)
    exact ⟨_, hpos, hle, readSome_of_bytes draw m hbytes⟩
  case all => rw [readSome_of_bytes k m hbytes, chunk_of_allowed hk hle]
  case empty => exact ⟨fun h => by simp only [readSome, hbytes, h], fun h => by simp only [readSome, hbytes, h],
      fun h => by simp only [readSome, hbytes, h]⟩

/-! What a DECODE consumes. -/

/-- The bytes of the frame that starts with `bytes`, once its LENGTH bytes are there. -/
def frameSize (width : Width) (bytes : List Byte) : Nat :=
  (fromLe ((bytes.drop 1).take width.bytes)).toNat + width.bytes + 4

theorem frameSize_cons (width : Width) {lenb : List Byte} (hlenb : lenb.length = width.bytes) (b : Byte)
    (more : List Byte) : frameSize width (b :: (lenb ++ more)) = (fromLe lenb).toNat + width.bytes + 4 := by
  simp [frameSize, ← hlenb]

/-- Too few bytes for HEADER, COMMAND, payload and FCS. -/
theorem bodyOutcome_short (draw : Nat → Nat) (acc : Byte) (body : List Byte) {need : Nat} {bytes : List Byte}
    (h : bytes.length ≤ need) (term : RxTerm) :
    bodyOutcome draw acc body need ⟨bytes, term⟩ = FrameRead.onExhausted term := by
  induction bytes generalizing acc body need with
  | nil => exact bodyOutcome_nil draw acc body need term
  | cons b rest ih =>
    obtain ⟨n, rfl⟩ : ∃ n, need = n + 1 := Nat.exists_eq_succ_of_ne_zero (Nat.ne_of_gt (Nat.zero_lt_of_lt h))
    rw [bodyOutcome_cons, ih _ _ (Nat.le_of_succ_le_succ h)]

theorem exists_split_at {n : Nat} {bytes : List Byte} (h : n < bytes.length) :
    ∃ front c rest, bytes = front ++ c :: rest ∧ front.length = n :=
  ⟨bytes.take n, bytes[n], bytes.drop (n + 1), by rw [List.cons_getElem_drop_succ, List.take_append_drop],
    List.length_take_of_le h.le⟩

/-- Everything a DECODE can come to: a first byte that is no SOF, a whole frame, or too few bytes for one. -/
theorem decodeFrame_cases (draw : Nat → Nat) (width : Width) (bytes : List Byte) (term : RxTerm) :
    (∃ b rest, bytes = b :: rest ∧
      decodeFrame draw width ⟨bytes, term⟩ = .responded (Response.error .framingError) ⟨rest, term⟩) ∨
    (∃ lenb body c rest, lenb.length = width.bytes ∧ body.length = (fromLe lenb).toNat + Config.cmdBytes ∧
      bytes = Config.sof :: (lenb ++ body ++ c :: rest) ∧
      decodeFrame draw width ⟨bytes, term⟩ = .responded (answerOf lenb body c) ⟨rest, term⟩) ∨
    ((width.bytes + 1 ≤ bytes.length → bytes.length < frameSize width bytes) ∧
      decodeFrame draw width ⟨bytes, term⟩ = FrameRead.onExhausted term) := by
  cases bytes with
  | nil => exact .inr (.inr ⟨nofun, readExact_nil_andThen draw _ 0 term⟩)
  | cons b rest =>
    by_cases hb : b = Config.sof
    case neg => exact .inl ⟨b, rest, rfl, decodeFrame_cons_of_ne draw width hb rest term⟩
    subst hb
    by_cases hlen : width.bytes ≤ rest.length
    case neg =>
      refine .inr (.inr ⟨fun h => absurd (Nat.le_of_succ_le_succ h) hlen, ?_⟩)
      rw [decodeFrame_sof, readExact_short draw (Nat.lt_of_not_le hlen), andThen_onExhausted]
    obtain ⟨lenb, more, rfl, hlenb⟩ : ∃ lenb more, rest = lenb ++ more ∧ lenb.length = width.bytes :=
      ⟨rest.take width.bytes, rest.drop width.bytes, (List.take_append_drop _ _).symm, List.length_take_of_le hlen⟩
    by_cases hbody : more.length ≤ (fromLe lenb).toNat + Config.cmdBytes
    · refine .inr (.inr ⟨fun _ => ?_, ?_⟩)
      · rw [frameSize_cons width hlenb, List.length_cons, List.length_append, hlenb]
        unfold Config.cmdBytes at hbody
        omega
      · rw [decodeFrame_sof, readExact_append draw hlenb]
        exact bodyOutcome_short draw _ _ hbody term
    · obtain ⟨body, c, rest, rfl, hsize⟩ := exists_split_at (Nat.lt_of_not_le hbody)
      refine .inr (.inl ⟨lenb, body, c, rest, hlenb, hsize, by rw [List.append_assoc], ?_⟩)
      rw [← List.append_assoc]
      exact decodeFrame_frame draw c rest term hlenb hsize

/-- The answer to a whole frame is one of two. -/
theorem answerOf_code (lenb body : List Byte) (c : Byte) :
    (answerOf lenb body c).code = .ok ∨ (answerOf lenb body c).code = .checksumError := by
  unfold answerOf
  split
  · exact .inr rfl
  · exact .inl rfl

/-- Settles O20: by what the DECODE came to; what was used is the byte, the frame, or all there was. -/
theorem decodeConsumption : Obligations.DecodeConsumption := by
  rintro draw width ⟨bytes, term⟩
  rcases decodeFrame_cases draw width bytes term with ⟨b, rest, rfl, hdecode⟩ |
    ⟨lenb, body, c, rest, hlenb, hbody, rfl, hdecode⟩ | ⟨hshort, hdecode⟩ <;> rw [hdecode]
  · refine ⟨fun r rx' h => ?_, nofun⟩
    cases h
    exact ⟨[b], rfl, rfl, rfl⟩
  · refine ⟨fun r rx' h => ?_, nofun⟩
    cases h
    have hsize : (Config.sof :: (lenb ++ (body ++ [c]))).length = frameSize width (Config.sof :: (lenb ++ (body ++ [c]))) := by
      rw [frameSize_cons width hlenb]
      simp only [List.length_cons, List.length_append, List.length_nil, hlenb, hbody, Config.cmdBytes]
      omega
    refine ⟨Config.sof :: (lenb ++ (body ++ [c])), by simp, rfl, ?_⟩
    rcases answerOf_code lenb body c with hcode | hcode <;> rw [hcode] <;> exact hsize
  · cases term with
    | opened =>
      refine ⟨nofun, fun rx' h => ?_⟩
      cases h
      exact ⟨rfl, rfl⟩
    | closed | errored =>
      refine ⟨fun r rx' h => ?_, nofun⟩
      cases h
      exact ⟨bytes, (List.append_nil _).symm, rfl, rfl, rfl, hshort⟩

end Sys2Proof.Machine
end
